-- ==== Sys2Proof/Word.lean ====
section
/-! DEFINITION. The word types of the machine (spec 00 R8, R9): bytes, 16-bit words, the 12-bit address field, the 4-bit
field, and the number of a general register. -/

namespace Sys2Proof

/-- A memory byte, a general register's value or a timer's value (10 R14, R19, R20, R22). -/
abbrev Byte := BitVec 8

/-- An instruction word, the program counter, the index register or a stack entry (10 R16, R17, R18; 30 R60). -/
abbrev Word := BitVec 16

/-- The 12-bit address field NNN of a word (30 R61). -/
abbrev Addr12 := BitVec 12

/-- A 4-bit field of a word (30 R61). -/
abbrev Nibble := BitVec 4

/-- The number of a general register, 0 to 15 (10 R14). -/
abbrev Reg := Fin 16

/-- The number of a logical key, 0x0 to 0xF (10 R25). -/
abbrev Key := Fin 16

/-- V[15], the register that flag-writing instructions overwrite (10 R15). -/
abbrev VF : Reg := 15

end Sys2Proof
end

