-- ==== Sys2Proof/Syntax.lean ====
section
/-! DEFINITION. The instructions: one constructor per row of spec/opcode_table.json (spec 30 R65), in the table's order. -/

namespace Sys2Proof

/-- The instructions as the decoder delivers them: register numbers, immediates and addresses, no raw encodings. -/
inductive Instr where
  /-- 00E0 CLS (44 R146). -/
  | cls
  /-- 00EE RET (41 R97). -/
  | ret
  /-- 0NNN SYS addr, NNN neither 0E0 nor 0EE (41 R96). -/
  | sys (nnn : Addr12)
  /-- 1NNN JP addr (41 R98). -/
  | jp (nnn : Addr12)
  /-- 2NNN CALL addr (41 R99). -/
  | call (nnn : Addr12)
  /-- 3XNN SE Vx, byte (41 R100). -/
  | seByte (x : Reg) (nn : Byte)
  /-- 4XNN SNE Vx, byte (41 R101). -/
  | sneByte (x : Reg) (nn : Byte)
  /-- 5XYN SE Vx, Vy; N is kept from the word and ignored (41 R102, 30 R67). -/
  | seReg (x y : Reg) (n : Nibble)
  /-- 6XNN LD Vx, byte (42 R111). -/
  | ldByte (x : Reg) (nn : Byte)
  /-- 7XNN ADD Vx, byte (42 R112). -/
  | addByte (x : Reg) (nn : Byte)
  /-- 8XY0 LD Vx, Vy (42 R113). -/
  | ldReg (x y : Reg)
  /-- 8XY1 OR Vx, Vy (42 R114). -/
  | orReg (x y : Reg)
  /-- 8XY2 AND Vx, Vy (42 R115). -/
  | andReg (x y : Reg)
  /-- 8XY3 XOR Vx, Vy (42 R116). -/
  | xorReg (x y : Reg)
  /-- 8XY4 ADD Vx, Vy (42 R117). -/
  | addReg (x y : Reg)
  /-- 8XY5 SUB Vx, Vy (42 R118). -/
  | subReg (x y : Reg)
  /-- 8XY6 SHR Vx with optional Vy (42 R119). -/
  | shr (x y : Reg)
  /-- 8XY7 SUBN Vx, Vy (42 R120). -/
  | subnReg (x y : Reg)
  /-- 8XYE SHL Vx with optional Vy (42 R121). -/
  | shl (x y : Reg)
  /-- 9XYN SNE Vx, Vy; N is kept from the word and ignored (41 R103, 30 R67). -/
  | sneReg (x y : Reg) (n : Nibble)
  /-- ANNN LD I, addr (43 R131). -/
  | ldI (nnn : Addr12)
  /-- BNNN JP V0, addr; with the quirk off, X is the top nibble of NNN (41 R104). -/
  | jpV0 (nnn : Addr12)
  /-- CXNN RND Vx, byte (42 R122). -/
  | rnd (x : Reg) (nn : Byte)
  /-- DXYN DRW Vx, Vy, nibble (44 R147). -/
  | drw (x y : Reg) (n : Nibble)
  /-- EX9E SKP Vx (45 R161). -/
  | skp (x : Reg)
  /-- EXA1 SKNP Vx (45 R162). -/
  | sknp (x : Reg)
  /-- FX07 LD Vx, DT (45 R164). -/
  | ldFromDt (x : Reg)
  /-- FX0A LD Vx, K (45 R163). -/
  | ldKey (x : Reg)
  /-- FX15 LD DT, Vx (45 R165). -/
  | ldDt (x : Reg)
  /-- FX18 LD ST, Vx (45 R166). -/
  | ldSt (x : Reg)
  /-- FX1E ADD I, Vx (43 R132). -/
  | addI (x : Reg)
  /-- FX29 LD F, Vx (43 R133). -/
  | ldFont (x : Reg)
  /-- FX33 LD B, Vx (43 R134). -/
  | ldBcd (x : Reg)
  /-- FX55 LD [I], Vx (43 R135). -/
  | storeRegs (x : Reg)
  /-- FX65 LD Vx, [I] (43 R136). -/
  | loadRegs (x : Reg)
  /-- Any word that selects no row above: the table's catch-all (30 R71, 60 R181). -/
  | illegal (w : Word)
deriving DecidableEq, Repr

end Sys2Proof
end

