-- ==== Sys2Proof/WellFormed.lean ====
section
/-! DEFINITION. Which terms of Instr stand for a word: only SYS and the catch-all carry a condition, since every other
field is as wide as its constructor's argument (spec 30 R66 to R71). -/

namespace Sys2Proof

/-- The word selects no row of the opcode map, by its group's secondary key: N in group 8 (30 R68), NN in groups E and F
(30 R69, R70). Groups 0 to 7, 9 and A to D leave no word over. -/
def selectsNoRow (w : Word) : Bool :=
  let n := (w.extractLsb' 0 4).toNat
  let nn := (w.extractLsb' 0 8).toNat
  match (w.extractLsb' 12 4).toNat with
  | 0x8 => n ∈ [0x8, 0x9, 0xA, 0xB, 0xC, 0xD, 0xF]
  | 0xE => nn ∉ [0x9E, 0xA1]
  | 0xF => nn ∉ [0x07, 0x0A, 0x15, 0x18, 0x1E, 0x29, 0x33, 0x55, 0x65]
  | _ => false

/-- An instruction that some word decodes to: SYS is group 0 without CLS and RET (30 R66), the catch-all is a word that
selects no row (30 R71). -/
def Instr.wellFormed : Instr → Bool
  | .sys nnn => nnn != 0x0E0 && nnn != 0x0EE
  | .illegal w => selectsNoRow w
  | .cls | .ret | .jp _ | .call _ | .seByte _ _ | .sneByte _ _ | .seReg _ _ _ | .ldByte _ _ | .addByte _ _
  | .ldReg _ _ | .orReg _ _ | .andReg _ _ | .xorReg _ _ | .addReg _ _ | .subReg _ _ | .shr _ _ | .subnReg _ _
  | .shl _ _ | .sneReg _ _ _ | .ldI _ | .jpV0 _ | .rnd _ _ | .drw _ _ _ | .skp _ | .sknp _ | .ldFromDt _
  | .ldKey _ | .ldDt _ | .ldSt _ | .addI _ | .ldFont _ | .ldBcd _ | .storeRegs _ | .loadRegs _ => true

end Sys2Proof
end

