-- ==== Sys2Proof/Decode.lean ====
section
/-! DEFINITION. The decoder (spec 30 R61, R64 to R71, R75): total on words and on byte lists, every illegal word named;
then the encoder, from the same table. -/

namespace Sys2Proof

/-- The register a 4-bit field names (30 R63). -/
def regOfNibble (b : Nibble) : Reg := b.toFin

/-- The 4-bit field that names a register. -/
def nibbleOfReg (r : Reg) : Nibble := BitVec.ofFin r

/-- group = w[15:12], as a number (30 R61). -/
def fieldGroup (w : Word) : Nat := (w.extractLsb' 12 4).toNat

/-- X = w[11:8] (30 R61). -/
def fieldX (w : Word) : Reg := regOfNibble (w.extractLsb' 8 4)

/-- Y = w[7:4] (30 R61). -/
def fieldY (w : Word) : Reg := regOfNibble (w.extractLsb' 4 4)

/-- N = w[3:0] (30 R61). -/
def fieldN (w : Word) : Nibble := w.extractLsb' 0 4

/-- NN = w[7:0] (30 R61). -/
def fieldNN (w : Word) : Byte := w.extractLsb' 0 8

/-- NNN = w[11:0] (30 R61). -/
def fieldNNN (w : Word) : Addr12 := w.extractLsb' 0 12

/-- X as BNNN reads it: the top nibble of its NNN, NNN[11:8] (41 R104). -/
def topRegOfAddr (nnn : Addr12) : Reg := regOfNibble (nnn.extractLsb' 8 4)

/-- Group 0 is matched on the whole word (30 R66, C4). -/
def decodeGroup0 (w : Word) : Instr :=
  match (fieldNNN w).toNat with
  | 0x0E0 => .cls
  | 0x0EE => .ret
  | _ => .sys (fieldNNN w)

/-- Group 8 is matched on N (30 R68). -/
def decodeGroup8 (w : Word) : Instr :=
  match (fieldN w).toNat with
  | 0x0 => .ldReg (fieldX w) (fieldY w)
  | 0x1 => .orReg (fieldX w) (fieldY w)
  | 0x2 => .andReg (fieldX w) (fieldY w)
  | 0x3 => .xorReg (fieldX w) (fieldY w)
  | 0x4 => .addReg (fieldX w) (fieldY w)
  | 0x5 => .subReg (fieldX w) (fieldY w)
  | 0x6 => .shr (fieldX w) (fieldY w)
  | 0x7 => .subnReg (fieldX w) (fieldY w)
  | 0xE => .shl (fieldX w) (fieldY w)
  | _ => .illegal w

/-- Group E is matched on NN (30 R69). -/
def decodeGroupE (w : Word) : Instr :=
  match (fieldNN w).toNat with
  | 0x9E => .skp (fieldX w)
  | 0xA1 => .sknp (fieldX w)
  | _ => .illegal w

/-- Group F is matched on NN (30 R70). -/
def decodeGroupF (w : Word) : Instr :=
  match (fieldNN w).toNat with
  | 0x07 => .ldFromDt (fieldX w)
  | 0x0A => .ldKey (fieldX w)
  | 0x15 => .ldDt (fieldX w)
  | 0x18 => .ldSt (fieldX w)
  | 0x1E => .addI (fieldX w)
  | 0x29 => .ldFont (fieldX w)
  | 0x33 => .ldBcd (fieldX w)
  | 0x55 => .storeRegs (fieldX w)
  | 0x65 => .loadRegs (fieldX w)
  | _ => .illegal w

/-- The dispatcher's first level, by group (30 R64). Every word has exactly one outcome (30 R75). -/
def decode (w : Word) : Instr :=
  match fieldGroup w with
  | 0x0 => decodeGroup0 w
  | 0x1 => .jp (fieldNNN w)
  | 0x2 => .call (fieldNNN w)
  | 0x3 => .seByte (fieldX w) (fieldNN w)
  | 0x4 => .sneByte (fieldX w) (fieldNN w)
  | 0x5 => .seReg (fieldX w) (fieldY w) (fieldN w)
  | 0x6 => .ldByte (fieldX w) (fieldNN w)
  | 0x7 => .addByte (fieldX w) (fieldNN w)
  | 0x8 => decodeGroup8 w
  | 0x9 => .sneReg (fieldX w) (fieldY w) (fieldN w)
  | 0xA => .ldI (fieldNNN w)
  | 0xB => .jpV0 (fieldNNN w)
  | 0xC => .rnd (fieldX w) (fieldNN w)
  | 0xD => .drw (fieldX w) (fieldY w) (fieldN w)
  | 0xE => decodeGroupE w
  | 0xF => decodeGroupF w
  | _ => .illegal w   -- a 4-bit group has no other value

/-- Why a list of bytes holds no instruction. -/
inductive DecodeReject where
  /-- Fewer than the two bytes of a word (30 R60). -/
  | truncated
deriving DecidableEq, Repr

/-- The word whose high byte stands at the lower address (20 R46). -/
def wordOfBytes (hi lo : Byte) : Word := hi ++ lo

/-- The byte at the lower address of a stored word, w[15:8] (20 R46). -/
def highByte (w : Word) : Byte := w.extractLsb' 8 8

/-- The byte at the higher address of a stored word, w[7:0] (20 R46). -/
def lowByte (w : Word) : Byte := w.extractLsb' 0 8

/-- The decoder on any bytes: the instruction in front and the bytes after it. -/
def decodeBytes : List Byte → Except DecodeReject (Instr × List Byte)
  | hi :: lo :: rest => .ok (decode (wordOfBytes hi lo), rest)
  | [_] => .error .truncated
  | [] => .error .truncated

/-- The word of an opcode-table row: its lowest nbits bits, zero above (one word is the longest instruction). -/
def tableWord (nbits w : Nat) : Word := BitVec.ofNat 16 (w % 2 ^ nbits)

/-- What the decoder reads from an instruction whose bits are w, numbered as spec/opcode_table.json numbers them. -/
def decodeTableWord (nbits w : Nat) : Option Instr :=
  match decodeBytes [highByte (tableWord nbits w), lowByte (tableWord nbits w)] with
  | .ok (i, _) => some i
  | .error _ => none

/-- Format A (30 R62). -/
def packA (g : Nibble) (nnn : Addr12) : Word := g ++ nnn

/-- Formats XI and XS (30 R62). -/
def packXI (g : Nibble) (x : Reg) (nn : Byte) : Word := (g ++ nibbleOfReg x) ++ nn

/-- Formats XY and XYN (30 R62). -/
def packXYN (g : Nibble) (x y : Reg) (n : Nibble) : Word := ((g ++ nibbleOfReg x) ++ nibbleOfReg y) ++ n

/-- The encoder, row by row (30 R65). -/
def encode : Instr → Word
  | .cls => 0x00E0
  | .ret => 0x00EE
  | .sys nnn => packA 0x0 nnn
  | .jp nnn => packA 0x1 nnn
  | .call nnn => packA 0x2 nnn
  | .seByte x nn => packXI 0x3 x nn
  | .sneByte x nn => packXI 0x4 x nn
  | .seReg x y n => packXYN 0x5 x y n
  | .ldByte x nn => packXI 0x6 x nn
  | .addByte x nn => packXI 0x7 x nn
  | .ldReg x y => packXYN 0x8 x y 0x0
  | .orReg x y => packXYN 0x8 x y 0x1
  | .andReg x y => packXYN 0x8 x y 0x2
  | .xorReg x y => packXYN 0x8 x y 0x3
  | .addReg x y => packXYN 0x8 x y 0x4
  | .subReg x y => packXYN 0x8 x y 0x5
  | .shr x y => packXYN 0x8 x y 0x6
  | .subnReg x y => packXYN 0x8 x y 0x7
  | .shl x y => packXYN 0x8 x y 0xE
  | .sneReg x y n => packXYN 0x9 x y n
  | .ldI nnn => packA 0xA nnn
  | .jpV0 nnn => packA 0xB nnn
  | .rnd x nn => packXI 0xC x nn
  | .drw x y n => packXYN 0xD x y n
  | .skp x => packXI 0xE x 0x9E
  | .sknp x => packXI 0xE x 0xA1
  | .ldFromDt x => packXI 0xF x 0x07
  | .ldKey x => packXI 0xF x 0x0A
  | .ldDt x => packXI 0xF x 0x15
  | .ldSt x => packXI 0xF x 0x18
  | .addI x => packXI 0xF x 0x1E
  | .ldFont x => packXI 0xF x 0x29
  | .ldBcd x => packXI 0xF x 0x33
  | .storeRegs x => packXI 0xF x 0x55
  | .loadRegs x => packXI 0xF x 0x65
  | .illegal w => w

end Sys2Proof
end

