-- ==== Sys2Proof/Config.lean ====
section
/-! DEFINITION. What is fixed for the machine (spec 00 R6), the parameters that spec 00 R7 calls arguments of the model,
the inputs of one step (10 R25 to R28), and the free values: constants without a body, which no proof can evaluate. -/

namespace Sys2Proof

/-- MEM_SIZE (00 R6). -/
def Config.memSize : Nat := 0x1000

/-- FONT_BASE (00 R6). -/
def Config.fontBase : Nat := 0x050

/-- The size of the font region: 16 glyphs of GLYPH_BYTES = 5 bytes (00 R6). -/
def Config.fontSize : Nat := 80

/-- PROG_BASE, where a ROM is copied and where execution starts (00 R6, 20 R43). -/
def Config.progBase : Nat := 0x200

/-- ROM_MAX, the longest ROM that fits below the top of memory (00 R7, 70 R214). -/
def Config.romMax : Nat := 3584

/-- The three quirk inputs Q of a step (10 R26). -/
structure Quirks where
  /-- 8XY6 and 8XYE copy V[Y] into V[X] before they shift. -/
  shiftSource : Bool
  /-- BNNN offsets from V[0] rather than V[X]. -/
  jumpOffset : Bool
  /-- FX55 and FX65 advance I by X + 1. -/
  storeLoadIncrement : Bool
deriving DecidableEq, Repr

/-- QUIRKS_DEFAULT: what a host supplies when it has expressed no choice (10 R26, D12). -/
def Quirks.standard : Quirks :=
  { shiftSource := false, jumpOffset := true, storeLoadIncrement := false }

/-- What the host presents to one step (10 R25 to R28). -/
structure StepInput where
  /-- KEYS: bit k is 1 when logical key k is pressed (10 R25). -/
  keys : BitVec 16
  /-- Q (10 R26). -/
  quirks : Quirks
  /-- RND (10 R27). -/
  rnd : Byte
  /-- ELAPSED, in nanoseconds (10 R28). -/
  elapsed : Nat
  /-- The model's own: which pressed key FX0A reports when several are down, or none for the spec's default KeySelect,
  the lowest (45 R172). DESIGN CHOICE, safe: log entry 6. -/
  keyPick : Option Key
deriving DecidableEq, Repr

/-- Inputs at rest: no key, the default quirks, nothing elapsed. -/
def StepInput.quiet : StepInput :=
  { keys := 0, quirks := Quirks.standard, rnd := 0, elapsed := 0, keyPick := none }

/-- FREE VALUE: the keys down in the n-th sampled step when the host's script gives no entry for it (10 R25; log entry 3). -/
opaque Config.freeKeys : Nat → BitVec 16

/-- FREE VALUE: the random byte of the n-th sampled step when the host's script gives none (10 R27, D15; log entry 3). -/
opaque Config.freeRandom : Nat → Byte

/-- FREE VALUE: the time elapsed before the n-th sampled step when the host's script gives none (10 R28, U9; log entry 3). -/
opaque Config.freeElapsed : Nat → Nat

/-- FREE VALUE: the key pick of the n-th sampled step when the host's script gives none (45 R172, U10; log entries 3, 6). -/
opaque Config.freeKeyPick : Nat → Option Key

/-- FREE VALUE: by how many nanoseconds TIMER_THRESHOLD exceeds 16 ms; at most one millisecond (00 R7, D14; log entry 5). -/
opaque Config.timerThresholdExcess : Fin 1000001

/-- The least TIMER_THRESHOLD the spec allows, 16 ms, in nanoseconds (00 R7). -/
def Config.timerThresholdMin : Nat := 16000000

/-- The greatest TIMER_THRESHOLD the spec allows, 17 ms, in nanoseconds (00 R7). -/
def Config.timerThresholdMax : Nat := 17000000

/-- KEY_OPERAND_MODE: which key EX9E and EXA1 test (45 R171). -/
inductive KeyOperandMode where
  /-- Key number X, the document's literal text; the default. -/
  | field
  /-- Key number V[X]; a value above 15 names no key. -/
  | register
deriving DecidableEq, Repr

/-- The parameters of 00 R7 that a step or a reset depends on: fixed for the life of a machine (70 R212). They stand in State because
exec and step take nothing else, so that a statement about every state is one about every parameter (log entry 4). -/
structure Params where
  /-- STACK_DEPTH: a positive capacity, or none for an unbounded stack (10 R18, D7). -/
  stackDepth : Option Nat
  /-- TIMER_THRESHOLD in nanoseconds (45 R167). -/
  timerThreshold : Nat
  /-- KEY_OPERAND_MODE (45 R171). -/
  keyOperandMode : KeyOperandMode
  /-- FONT_ROM, the 80 bytes that every reset copies to 0x050..0x09F (20 R42, 70 R211). -/
  font : Vector Byte 80
deriving DecidableEq, Repr

/-- What the spec demands of the parameters: a positive capacity, a threshold of 16 ms to 17 ms (00 R7). -/
abbrev Params.Valid (p : Params) : Prop :=
  p.stackDepth ≠ some 0 ∧ Config.timerThresholdMin ≤ p.timerThreshold ∧ p.timerThreshold ≤ Config.timerThresholdMax

end Sys2Proof
end

