-- ==== Sys2Proof/Machine/Defaults.lean ====
section
/-! DEFINITION. The values the parameters have where a machine's maker names none (spec 00 R7). -/

namespace Sys2Proof

/-- The default FONT_ROM, glyph by glyph (20 R42). PRESUMED, unsafe for claims about glyph pixels: log entry 7. -/
def fontRom : Vector Byte 80 :=
  Vector.mk (List.toArray (
    [0xF0, 0x90, 0x90, 0x90, 0xF0, 0x20, 0x60, 0x20, 0x20, 0x70, 0xF0, 0x10, 0xF0, 0x80, 0xF0, 0xF0, 0x10, 0xF0, 0x10, 0xF0]
    ++ [0x90, 0x90, 0xF0, 0x10, 0x10, 0xF0, 0x80, 0xF0, 0x10, 0xF0, 0xF0, 0x80, 0xF0, 0x90, 0xF0, 0xF0, 0x10, 0x20, 0x40, 0x40]
    ++ [0xF0, 0x90, 0xF0, 0x90, 0xF0, 0xF0, 0x90, 0xF0, 0x10, 0xF0, 0xF0, 0x90, 0xF0, 0x90, 0x90, 0xE0, 0x90, 0xE0, 0x90, 0xE0]
    ++ [0xF0, 0x80, 0x80, 0x80, 0xF0, 0xE0, 0x90, 0x90, 0x90, 0xE0, 0xF0, 0x80, 0xF0, 0x80, 0xF0, 0xF0, 0x80, 0xF0, 0x80, 0x80])) rfl

/-- The spec's defaults (00 R7): STACK_DEPTH 16, KEY_OPERAND_MODE field, the conventional font; the threshold has no default
and is a free value of its range. DESIGN CHOICE, unsafe for a claim about State.reset alone: log entries 4, 5 and 7. -/
def Params.standard : Params :=
  { stackDepth := some 16
    timerThreshold := Config.timerThresholdMin + Config.timerThresholdExcess.val
    keyOperandMode := .field
    font := fontRom }

end Sys2Proof
end

