-- ==== Sys2Proof/Machine/State.lean ====
section
/-! DEFINITION. The state of the core (spec 10 R13 to R24), with the outputs and inputs of a step carried beside it, the
reasons the host's load operation can stop, and the state after a bare reset (10 R30, 70 R210). -/

namespace Sys2Proof.Machine

/-- What the fault latch holds once a step has faulted (10 R24, 60 R180). -/
inductive FaultRecord where
  /-- Code 1: the word as fetched and the program counter as it stands, the word's address + 2 (60 R181). -/
  | unsupportedOpcode (word pc : Word)
  /-- Code 2: 00EE with an empty stack (60 R182). -/
  | stackUnderflow
  /-- Code 3: the lowest out-of-range address of the access (60 R183). -/
  | memoryOutOfRange (addr : BitVec 17)
  /-- Code 4: 2NNN with a full stack (60 R184). -/
  | stackOverflow
deriving DecidableEq, Repr

/-- Reasons the model itself stops. No step does: the faults of spec 60 are taken, as next states with the latch set
(log entry 1). -/
inductive Fault where
  /-- Raised by loadRom, never by a step: the ROM is empty (60 R186). Safe: the caller is told and nothing changes. -/
  | invalidRom
deriving DecidableEq, Repr

/-- What the model gives no meaning. -/
inductive Refusal where
  /-- Raised only by an arm of exec whose instruction has no meaning yet; no arm does. Safe. -/
  | notModelled (mnemonic : String)
  /-- Raised by loadRom, never by a step: a ROM longer than 3584 bytes, for which no reset is defined (70 R214, U13).
  Safe: such a launch is not admitted. -/
  | romTooLong
deriving DecidableEq, Repr

/-- The machine. -/
structure State where
  /-- MEM: the bytes that differ from what an unlisted address reads as, by rising address (10 R22). -/
  mem : List Host.Cell
  /-- V[0..15] (10 R14). -/
  v : Vector Byte 16
  /-- The program counter (10 R16). -/
  pc : Word
  /-- The index register I (10 R17). -/
  i : Word
  /-- STACK, the most recently pushed value first (10 R18). -/
  stack : List Word
  /-- The delay timer DT (10 R19). -/
  dt : Byte
  /-- The sound timer ST (10 R20). -/
  st : Byte
  /-- FB: 32 rows from the top of 64 pixels from the left, true is on (10 R21). -/
  fb : Vector (Vector Bool 64) 32
  /-- ACC, the TimerGate's accumulator, in nanoseconds (10 R23). -/
  acc : Nat
  /-- FAULT, none or what was recorded (10 R24). -/
  fault : Option FaultRecord
  /-- The output REDRAW of the last step (10 R29). -/
  redraw : Bool
  /-- The inputs sampled for the current step (40 R82); the model's own field. -/
  now : StepInput
  /-- What the host will present to the coming steps, in order (70 R221); the model's own field. -/
  inputs : List StepInput
  /-- How many times inputs were sampled, the argument of the free values; the model's own field. -/
  tick : Nat
  /-- The parameters of 00 R7; the model's own field, which nothing changes. -/
  params : Params
deriving DecidableEq, Repr

/-- A dark frame buffer. -/
def darkScreen : Vector (Vector Bool 64) 32 := Vector.replicate 32 (Vector.replicate 64 false)

/-- The machine right after a bare reset, the creation of 10 R30 with no ROM copied (70 R210): the font in place and zero
elsewhere in memory, every register and timer 0, pc 0x200, an empty stack, a dark screen, no fault. The fields redraw, now,
inputs, tick and params are the model's own: log entries 2, 3, 4, 8, 9. -/
def State.reset : State :=
  { mem := []
    v := Vector.replicate 16 0
    pc := 0x0200
    i := 0
    stack := []
    dt := 0
    st := 0
    fb := darkScreen
    acc := 0
    fault := none
    redraw := false
    now := StepInput.quiet
    inputs := []
    tick := 0
    params := Params.standard }

end Sys2Proof.Machine
end

