-- ==== Sys2Proof/Machine/Ops.lean ====
section
/-! DEFINITION. The named operations over memory, registers, stack and frame buffer, the range check, fetching, sampling
the inputs, and raising a fault (spec 20, 40, 60). -/

namespace Sys2Proof.Machine

/-! ### Memory -/

/-- What an unlisted address reads as: the contents after a bare reset with the default FONT_ROM, the font at 0x050..0x09F
and 0 elsewhere (10 R30, 70 R211). Under another FONT_ROM the reset lists the bytes that differ. -/
def resetByte (a : Nat) : Byte :=
  if Config.fontBase ≤ a ∧ a < Config.fontBase + Config.fontSize then fontRom.toList.getD (a - Config.fontBase) 0 else 0

/-- The byte at an address. -/
def Memory.read : List Host.Cell → Nat → Byte
  | [], a => resetByte a
  | (b, u) :: rest, a => if a = b then u else Memory.read rest a

/-- Store a byte, keeping the list's canonical form: rising addresses, no entry that equals the reset contents. -/
def Memory.write : List Host.Cell → Nat → Byte → List Host.Cell
  | [], a, v => if v = resetByte a then [] else [(a, v)]
  | (b, u) :: rest, a, v =>
    if a < b then (if v = resetByte a then (b, u) :: rest else (a, v) :: (b, u) :: rest)
    else if a = b then (if v = resetByte a then rest else (a, v) :: rest)
    else (b, u) :: Memory.write rest a v

/-- The canonical form from an address up: strictly rising, inside the address space (10 R22), no entry that an unlisted
address would read as. -/
def Memory.wfFrom : Nat → List Host.Cell → Bool
  | _, [] => true
  | lo, (a, v) :: rest => decide (lo ≤ a) && decide (a < Config.memSize) && v != resetByte a && Memory.wfFrom (a + 1) rest

/-- The canonical form of memory. -/
def Memory.wf (m : List Host.Cell) : Bool := Memory.wfFrom 0 m

/-- MemRead(addr, 1) of an address the caller has checked (20 R44). -/
def State.readByte (s : State) (a : Nat) : Byte := Memory.read s.mem a

/-- Replace the memory. -/
def State.setMem (s : State) (m : List Host.Cell) : State := { s with mem := m }

/-- MemWrite(addr, 1, v) of an address the caller has checked (20 R45). -/
def State.writeByte (s : State) (a : Nat) (b : Byte) : State := s.setMem (Memory.write s.mem a b)

/-- The range check an access makes before it touches anything: none when the bytes base to base + len - 1 exist or len
is 0, else the lowest of them that does not (20 R44, R49; 40 R83). -/
def outOfRange (base len : Nat) : Option (BitVec 17) :=
  if len = 0 ∨ base + len ≤ Config.memSize then none else some (BitVec.ofNat 17 (max base Config.memSize))

/-! ### Registers, program counter, stack, timers -/

/-- Read V[r] (10 R14). -/
def State.getV (s : State) (r : Reg) : Byte := s.v[r.val]

/-- Write V[r] (10 R14): no register is hardwired. -/
def State.setV (s : State) (r : Reg) (b : Byte) : State := { s with v := s.v.set r.val b r.isLt }

/-- pc <- target (00 R9). -/
def State.setPc (s : State) (target : Word) : State := { s with pc := target }

/-- I <- value (10 R17). -/
def State.setI (s : State) (value : Word) : State := { s with i := value }

/-- Replace the call stack (10 R18). -/
def State.setStack (s : State) (stack : List Word) : State := { s with stack := stack }

/-- DT <- value (10 R19). -/
def State.setDt (s : State) (value : Byte) : State := { s with dt := value }

/-- ST <- value (10 R20). -/
def State.setSt (s : State) (value : Byte) : State := { s with st := value }

/-- pc <- pc + 2: the advance before every handler (40 R85), and once more for a skip (40 R91). -/
def State.advance (s : State) : State := s.setPc (s.pc + 2)

/-- Skip() when the condition holds (40 R91). -/
def State.skipIf (s : State) (cond : Bool) : State := if cond then s.advance else s

/-- depth = STACK_DEPTH; never for an unbounded stack (10 R18, 41 R99). -/
def State.stackFull (s : State) : Bool :=
  match s.params.stackDepth with
  | none => false
  | some depth => decide (s.stack.length = depth)

/-! ### Frame buffer and outputs -/

/-- The frame-buffer read port: the pixel at column x, row y (44 R152); off the screen there is none, read as off. -/
def State.pixel (s : State) (x y : Nat) : Bool :=
  if h : x < 64 ∧ y < 32 then (s.fb[y]'h.2)[x]'h.1 else false

/-- Replace the frame buffer (10 R21). -/
def State.setFb (s : State) (fb : Vector (Vector Bool 64) 32) : State := { s with fb := fb }

/-- FB[y][x] <- NOT FB[y][x]; nothing off the screen (44 R148). -/
def State.togglePixel (s : State) (x y : Nat) : State :=
  if h : x < 64 ∧ y < 32 then
    s.setFb (s.fb.set y ((s.fb[y]'h.2).set x (!(s.fb[y]'h.2)[x]'h.1) h.1) h.2)
  else s

/-- The output REDRAW of this step (44 R153). -/
def State.setRedraw (s : State) (b : Bool) : State := { s with redraw := b }

/-- The output TONE: the sound timer is not zero (10 R29, 45 R169). -/
def State.tone (s : State) : Bool := s.st != 0

/-! ### Faults -/

/-- Taking a fault, the one way in for all four kinds (60 R189): the latch records it, REDRAW is 0, and nothing else
changes: nothing is saved, control goes nowhere, pc stays as it stands. There is no return from it but reset (60 R190). -/
def raise (f : FaultRecord) (s : State) : State := { s with fault := some f, redraw := false }

/-- The latch as reset leaves it (10 R24). -/
def State.clearFault (s : State) : State := { s with fault := none }

/-- FAULT.code (10 R24). -/
def faultCode : Option FaultRecord → BitVec 3
  | none => 0
  | some (.unsupportedOpcode _ _) => 1
  | some .stackUnderflow => 2
  | some (.memoryOutOfRange _) => 3
  | some .stackOverflow => 4

/-- FAULT.word, valid for code 1 (10 R24). -/
def faultWord : Option FaultRecord → Option Word
  | some (.unsupportedOpcode w _) => some w
  | some .stackUnderflow | some (.memoryOutOfRange _) | some .stackOverflow | none => none

/-- FAULT.pc, valid for code 1 (10 R24). -/
def faultPc : Option FaultRecord → Option Word
  | some (.unsupportedOpcode _ pc) => some pc
  | some .stackUnderflow | some (.memoryOutOfRange _) | some .stackOverflow | none => none

/-- FAULT.addr, valid for code 3 (10 R24). -/
def faultAddr : Option FaultRecord → Option (BitVec 17)
  | some (.memoryOutOfRange a) => some a
  | some .stackUnderflow | some (.unsupportedOpcode _ _) | some .stackOverflow | none => none

/-- A data instruction that touches len bytes from I: the range fault when some of them do not exist, before any access,
else its effect (20 R49, 40 R87). -/
def withRange (len : Nat) (effect : State → State) (s : State) : State :=
  match outOfRange s.i.toNat len with
  | some a => raise (.memoryOutOfRange a) s
  | none => effect s

/-! ### Beginning a step -/

/-- The inputs the host presents to this step: the next entry of its script; past the script's end free values, with the
quirks a host supplies when it has expressed no choice (10 R25 to R28; log entries 2, 3). -/
def nextInput (s : State) : StepInput :=
  match s.inputs with
  | input :: _ => input
  | [] =>
    { keys := Config.freeKeys s.tick
      quirks := Quirks.standard
      rnd := Config.freeRandom s.tick
      elapsed := Config.freeElapsed s.tick
      keyPick := Config.freeKeyPick s.tick }

/-- Sample the inputs, once, at the start of a step (40 R82). -/
def sample (s : State) : State := { s with now := nextInput s, inputs := s.inputs.tail, tick := s.tick + 1 }

/-- w <- MemRead(pc, 2): big-endian, at any pc, even or odd, and out of range from pc = 0x0FFF on (40 R83, 20 R46). -/
def fetch (s : State) : Except FaultRecord Word :=
  match outOfRange s.pc.toNat 2 with
  | some a => .error (.memoryOutOfRange a)
  | none => .ok (wordOfBytes (s.readByte s.pc.toNat) (s.readByte (s.pc.toNat + 1)))

/-- pc <- pc + 2 and REDRAW <- 0, before the handler runs (40 R81, R85). -/
def beginHandler (s : State) : State := s.advance.setRedraw false

/-- What a step does on a faulted core: nothing but answer REDRAW = 0 (40 R90). -/
def idle (s : State) : State := s.setRedraw false

end Sys2Proof.Machine
end

