-- ==== Sys2Proof/Machine/Flags.lean ====
section
/-! DEFINITION. Every flag computation the spec gives (10 R15): each is a bit that goes to VF. -/

namespace Sys2Proof.Machine

/-- V[15] <- 1 if the condition holds else 0 (10 R15). -/
def State.setFlag (s : State) (cond : Bool) : State := s.setV VF (if cond then 1 else 0)

/-- The carry of 8XY4: the integer sum exceeds 255 (42 R117). -/
def carryOf (sum : Nat) : Bool := decide (255 < sum)

/-- The flag of 8XY5 and 8XY7: minuend strictly greater than subtrahend (42 R118, R120; C3). -/
def greater (minuend subtrahend : Byte) : Bool := decide (subtrahend.toNat < minuend.toNat)

/-- The bit 8XY6 shifts out (42 R119). -/
def lowBit (b : Byte) : Bool := b.getLsbD 0

/-- The bit 8XYE shifts out (42 R121). -/
def highBit (b : Byte) : Bool := b.getLsbD 7

/-- The flag of FX1E: the sum exceeds 0x0FFF (43 R132). -/
def indexOverflow (sum : Nat) : Bool := decide (0x0FFF < sum)

end Sys2Proof.Machine
end

