-- ==== Sys2Proof/Machine/Operands.lean ====
section
/-! DEFINITION. The operand forms: the shift source, the jump base, the key an instruction means, the glyph address, the
register ranges, the decimal digits and the sprite rows. -/

namespace Sys2Proof.Machine

/-- The copy 8XY6 and 8XYE make first under the shift-source quirk (42 R119, R121). -/
def loadShiftSource (x y : Reg) (s : State) : State :=
  if s.now.quirks.shiftSource then s.setV x (s.getV y) else s

/-- The register BNNN adds: V[0] under the jump-offset quirk, else V[X] with X the top nibble of NNN (41 R104). -/
def jumpRegister (nnn : Addr12) (s : State) : Reg :=
  if s.now.quirks.jumpOffset then 0 else topRegOfAddr nnn

/-- KEYS[k] of this step's snapshot (10 R25). -/
def keyDown (s : State) (k : Nat) : Bool := s.now.keys.getLsbD k

/-- KeyPressed(X) in the mode of the machine (45 R171, D9; log entry 4). A register value above 15 names no key. -/
def keyPressed (x : Reg) (s : State) : Bool :=
  match s.params.keyOperandMode with
  | .field => keyDown s x.val
  | .register => decide ((s.getV x).toNat ≤ 15) && keyDown s (s.getV x).toNat

/-- The lowest pressed key: the spec's default KeySelect (45 R172). -/
def lowestKey (keys : BitVec 16) : Key := ((List.finRange 16).find? (fun k => keys.getLsbD k.val)).getD 0

/-- KeySelect(KEYS): the host's pick if that key is down, else the lowest pressed key (45 R172, D8; log entry 6). -/
def keySelect (input : StepInput) : Key :=
  match input.keyPick with
  | some k => if input.keys.getLsbD k.val then k else lowestKey input.keys
  | none => lowestKey input.keys

/-- The address of a glyph, of the full 8-bit value: FONT_BASE + 5 * value, in 16 bits (43 R133). -/
def glyphAddr (value : Byte) : Word := BitVec.ofNat 16 (Config.fontBase + 5 * value.toNat)

/-- FX1E's sum brought back into I: modulo 0x0FFF when it exceeds 0x0FFF (43 R132, U2). -/
def wrapIndex (sum : Nat) : Word := BitVec.ofNat 16 (if 0x0FFF < sum then sum % 0x0FFF else sum)

/-- The decimal digits of a byte, hundreds first (43 R134). -/
def hundreds (value : Byte) : Byte := BitVec.ofNat 8 (value.toNat / 100)

/-- The tens digit (43 R134). -/
def tens (value : Byte) : Byte := BitVec.ofNat 8 (value.toNat / 10 % 10)

/-- The units digit (43 R134). -/
def units (value : Byte) : Byte := BitVec.ofNat 8 (value.toNat % 10)

/-- Store V[0] to V[count - 1] at ascending addresses from base (43 R135). -/
def storeRange (base : Nat) : Nat → State → State
  | 0, s => s
  | count + 1, s =>
    let s' := storeRange base count s
    s'.writeByte (base + count) (s'.getV (Fin.ofNat 16 count))

/-- Load V[0] to V[count - 1] from ascending addresses from base (43 R136). -/
def loadRange (base : Nat) : Nat → State → State
  | 0, s => s
  | count + 1, s =>
    let s' := loadRange base count s
    s'.setV (Fin.ofNat 16 count) (s'.readByte (base + count))

/-- I <- I + X + 1 under the store-load-increment quirk, in 16 bits (43 R135, R136, R138). -/
def bumpIndex (x : Reg) (s : State) : State :=
  if s.now.quirks.storeLoadIncrement then s.setI (s.i + BitVec.ofNat 16 (x.val + 1)) else s

/-- The sprite's rows: MemRead(I + r, 1) for r = 0 .. count - 1 (44 R147). -/
def spriteRows (s : State) (count : Nat) : List Byte :=
  (List.range count).map (fun r => s.readByte (s.i.toNat + r))

/-- Where DXYN starts: the column V[X] mod 64 (44 R147). -/
def startColumn (x : Reg) (s : State) : Nat := (s.getV x).toNat % 64

/-- Where DXYN starts: the row V[Y] mod 32 (44 R147). -/
def startRow (y : Reg) (s : State) : Nat := (s.getV y).toNat % 32

end Sys2Proof.Machine
end

