-- ==== Sys2Proof/Machine/Alu.lean ====
section
/-! DEFINITION. Register load, arithmetic, logic, shift and random (spec 42). VF is written before V[X], and each statement
reads what the one before it left, which decides the cases X = 15 and Y = 15 (42 R110, R123; log entry 12). -/

namespace Sys2Proof.Machine

/-- 6XNN LD Vx, byte (42 R111). -/
def execLdByte (x : Reg) (nn : Byte) (s : State) : Host.Outcome State Fault Refusal :=
  .next (s.setV x nn)

/-- 7XNN ADD Vx, byte: the carry is discarded (42 R112). -/
def execAddByte (x : Reg) (nn : Byte) (s : State) : Host.Outcome State Fault Refusal :=
  .next (s.setV x (s.getV x + nn))

/-- 8XY0 LD Vx, Vy (42 R113). -/
def execLdReg (x y : Reg) (s : State) : Host.Outcome State Fault Refusal :=
  .next (s.setV x (s.getV y))

/-- 8XY1 OR Vx, Vy: VF is not reset (42 R114). -/
def execOrReg (x y : Reg) (s : State) : Host.Outcome State Fault Refusal :=
  .next (s.setV x (s.getV x ||| s.getV y))

/-- 8XY2 AND Vx, Vy (42 R115). -/
def execAndReg (x y : Reg) (s : State) : Host.Outcome State Fault Refusal :=
  .next (s.setV x (s.getV x &&& s.getV y))

/-- 8XY3 XOR Vx, Vy (42 R116). -/
def execXorReg (x y : Reg) (s : State) : Host.Outcome State Fault Refusal :=
  .next (s.setV x (s.getV x ^^^ s.getV y))

/-- 8XY4 ADD Vx, Vy: the integer sum is formed before VF is written (42 R117). -/
def execAddReg (x y : Reg) (s : State) : Host.Outcome State Fault Refusal :=
  let sum := (s.getV x).toNat + (s.getV y).toNat
  .next ((s.setFlag (carryOf sum)).setV x (BitVec.ofNat 8 sum))

/-- 8XY5 SUB Vx, Vy: both registers are read again after the flag is written (42 R118). -/
def execSubReg (x y : Reg) (s : State) : Host.Outcome State Fault Refusal :=
  let flagged := s.setFlag (greater (s.getV x) (s.getV y))
  .next (flagged.setV x (flagged.getV x - flagged.getV y))

/-- 8XY7 SUBN Vx, Vy: both registers are read again after the flag is written (42 R120). -/
def execSubnReg (x y : Reg) (s : State) : Host.Outcome State Fault Refusal :=
  let flagged := s.setFlag (greater (s.getV y) (s.getV x))
  .next (flagged.setV x (flagged.getV y - flagged.getV x))

/-- 8XY6 SHR Vx: V[X] is read again after the flag is written (42 R119). -/
def execShr (x y : Reg) (s : State) : Host.Outcome State Fault Refusal :=
  let sourced := loadShiftSource x y s
  let flagged := sourced.setFlag (lowBit (sourced.getV x))
  .next (flagged.setV x (flagged.getV x >>> 1))

/-- 8XYE SHL Vx: V[X] is read again after the flag is written (42 R121). -/
def execShl (x y : Reg) (s : State) : Host.Outcome State Fault Refusal :=
  let sourced := loadShiftSource x y s
  let flagged := sourced.setFlag (highBit (sourced.getV x))
  .next (flagged.setV x (flagged.getV x <<< 1))

/-- CXNN RND Vx, byte (42 R122). -/
def execRnd (x : Reg) (nn : Byte) (s : State) : Host.Outcome State Fault Refusal :=
  .next (s.setV x (s.now.rnd &&& nn))

end Sys2Proof.Machine
end

