-- ==== Sys2Proof/Machine/Display.lean ====
section
/-! DEFINITION. The display instructions and the blit engine (spec 44). -/

namespace Sys2Proof.Machine

/-- A sprite bit that is 1 meets the pixel at (x, y): off the screen it is clipped; on it, VF <- 1 if the pixel is on, and
the pixel is toggled (44 R148). -/
def plot (x y : Nat) (s : State) : State :=
  if x < 64 ∧ y < 32 then ((if s.pixel x y then s.setFlag true else s).togglePixel x y) else s

/-- The first count columns of one sprite row, bit 7 leftmost (44 R148). -/
def blitRow (x0 y : Nat) (row : Byte) : Nat → State → State
  | 0, s => s
  | count + 1, s =>
    let s' := blitRow x0 y row count s
    if row.getLsbD (7 - count) then plot (x0 + count) y s' else s'

/-- The blit engine: the rows downward from y0 (44 R148). -/
def blit (x0 : Nat) : Nat → List Byte → State → State
  | _, [], s => s
  | y, row :: rest, s => blit x0 (y + 1) rest (blitRow x0 y row 8 s)

/-- 00E0 CLS (44 R146). -/
def execCls (s : State) : Host.Outcome State Fault Refusal :=
  .next ((s.setFb darkScreen).setRedraw true)

/-- DXYN DRW Vx, Vy, nibble: the coordinates and all rows are read, then VF <- 0, then the blit (44 R147, D6). -/
def execDrw (x y : Reg) (n : Nibble) (s : State) : Host.Outcome State Fault Refusal :=
  .next (withRange n.toNat (fun t =>
    (blit (startColumn x t) (startRow y t) (spriteRows t n.toNat) (t.setFlag false)).setRedraw true) s)

end Sys2Proof.Machine
end

