-- ==== Sys2Proof/Machine/Flow.lean ====
section
/-! DEFINITION. Control transfer (spec 41). In every meaning pc is already the address of the next instruction (40 R85). -/

namespace Sys2Proof.Machine

/-- 0NNN SYS addr: always UnsupportedOpcode with the word itself (41 R96). -/
def execSys (nnn : Addr12) (s : State) : Host.Outcome State Fault Refusal :=
  .next (raise (.unsupportedOpcode (packA 0x0 nnn) s.pc) s)

/-- A word that selects no row: UnsupportedOpcode (60 R181). -/
def execIllegal (w : Word) (s : State) : Host.Outcome State Fault Refusal :=
  .next (raise (.unsupportedOpcode w s.pc) s)

/-- 00EE RET (41 R97). -/
def execRet (s : State) : Host.Outcome State Fault Refusal :=
  .next (match s.stack with
    | [] => raise .stackUnderflow s
    | top :: rest => (s.setStack rest).setPc top)

/-- 1NNN JP addr (41 R98). -/
def execJp (nnn : Addr12) (s : State) : Host.Outcome State Fault Refusal :=
  .next (s.setPc (nnn.setWidth 16))

/-- 2NNN CALL addr (41 R99). -/
def execCall (nnn : Addr12) (s : State) : Host.Outcome State Fault Refusal :=
  .next (if s.stackFull then raise .stackOverflow s
    else (s.setStack (s.pc :: s.stack)).setPc (nnn.setWidth 16))

/-- 3XNN SE Vx, byte (41 R100). -/
def execSeByte (x : Reg) (nn : Byte) (s : State) : Host.Outcome State Fault Refusal :=
  .next (s.skipIf (s.getV x == nn))

/-- 4XNN SNE Vx, byte (41 R101). -/
def execSneByte (x : Reg) (nn : Byte) (s : State) : Host.Outcome State Fault Refusal :=
  .next (s.skipIf (s.getV x != nn))

/-- 5XYN SE Vx, Vy (41 R102). -/
def execSeReg (x y : Reg) (s : State) : Host.Outcome State Fault Refusal :=
  .next (s.skipIf (s.getV x == s.getV y))

/-- 9XYN SNE Vx, Vy (41 R103). -/
def execSneReg (x y : Reg) (s : State) : Host.Outcome State Fault Refusal :=
  .next (s.skipIf (s.getV x != s.getV y))

/-- BNNN JP V0, addr: the sum is not masked to 12 bits (41 R104). -/
def execJpV0 (nnn : Addr12) (s : State) : Host.Outcome State Fault Refusal :=
  .next (s.setPc ((s.getV (jumpRegister nnn s)).setWidth 16 + nnn.setWidth 16))

end Sys2Proof.Machine
end

