-- ==== Sys2Proof/Machine/IndexMemory.lean ====
section
/-! DEFINITION. The index register, loads and stores (spec 43). -/

namespace Sys2Proof.Machine

/-- ANNN LD I, addr (43 R131). -/
def execLdI (nnn : Addr12) (s : State) : Host.Outcome State Fault Refusal :=
  .next (s.setI (nnn.setWidth 16))

/-- FX1E ADD I, Vx: the sum is formed before VF is written (43 R132). -/
def execAddI (x : Reg) (s : State) : Host.Outcome State Fault Refusal :=
  let sum := s.i.toNat + (s.getV x).toNat
  .next ((s.setFlag (indexOverflow sum)).setI (wrapIndex sum))

/-- FX29 LD F, Vx (43 R133). -/
def execLdFont (x : Reg) (s : State) : Host.Outcome State Fault Refusal :=
  .next (s.setI (glyphAddr (s.getV x)))

/-- FX33 LD B, Vx (43 R134). -/
def execLdBcd (x : Reg) (s : State) : Host.Outcome State Fault Refusal :=
  .next (withRange 3 (fun t =>
    ((t.writeByte t.i.toNat (hundreds (t.getV x))).writeByte (t.i.toNat + 1) (tens (t.getV x))).writeByte
      (t.i.toNat + 2) (units (t.getV x))) s)

/-- FX55 LD [I], Vx (43 R135). -/
def execStoreRegs (x : Reg) (s : State) : Host.Outcome State Fault Refusal :=
  .next (withRange (x.val + 1) (fun t => bumpIndex x (storeRange t.i.toNat (x.val + 1) t)) s)

/-- FX65 LD Vx, [I] (43 R136). -/
def execLoadRegs (x : Reg) (s : State) : Host.Outcome State Fault Refusal :=
  .next (withRange (x.val + 1) (fun t => bumpIndex x (loadRange t.i.toNat (x.val + 1) t)) s)

end Sys2Proof.Machine
end

