-- ==== Sys2Proof/Machine/KeypadTimers.lean ====
section
/-! DEFINITION. Keypad and timer instructions (spec 45). -/

namespace Sys2Proof.Machine

/-- EX9E SKP Vx (45 R161). -/
def execSkp (x : Reg) (s : State) : Host.Outcome State Fault Refusal :=
  .next (s.skipIf (keyPressed x s))

/-- EXA1 SKNP Vx (45 R162). -/
def execSknp (x : Reg) (s : State) : Host.Outcome State Fault Refusal :=
  .next (s.skipIf (!keyPressed x s))

/-- FX0A LD Vx, K: with no key down pc goes back to this instruction (45 R163). -/
def execLdKey (x : Reg) (s : State) : Host.Outcome State Fault Refusal :=
  .next (if s.now.keys = 0 then s.setPc (s.pc - 2) else s.setV x (BitVec.ofNat 8 (keySelect s.now).val))

/-- FX07 LD Vx, DT (45 R164). -/
def execLdFromDt (x : Reg) (s : State) : Host.Outcome State Fault Refusal :=
  .next (s.setV x s.dt)

/-- FX15 LD DT, Vx (45 R165). -/
def execLdDt (x : Reg) (s : State) : Host.Outcome State Fault Refusal :=
  .next (s.setDt (s.getV x))

/-- FX18 LD ST, Vx (45 R166). -/
def execLdSt (x : Reg) (s : State) : Host.Outcome State Fault Refusal :=
  .next (s.setSt (s.getV x))

end Sys2Proof.Machine
end

