-- ==== Sys2Proof/Machine/TimerGate.lean ====
section
/-! DEFINITION. The TimerGate, which ends every step that did not fault (spec 40 R88, 45 R167). -/

namespace Sys2Proof.Machine

/-- The accumulated time exceeds, strictly, the threshold (45 R167). -/
def gateFires (s : State) : Bool := decide (s.params.timerThreshold < s.acc + s.now.elapsed)

/-- One timer under the gate: one lower if the gate fires and it is not zero (45 R167, R170). -/
def countDown (fires : Bool) (timer : Byte) : Byte :=
  if timer = 0 then 0 else if fires then timer - 1 else timer

/-- TimerGate(ELAPSED): accumulate; when it fires, both timers count down and the accumulator restarts at 0 (45 R167). -/
def timerGate (s : State) : State :=
  { s with
    dt := countDown (gateFires s) s.dt
    st := countDown (gateFires s) s.st
    acc := if gateFires s then 0 else s.acc + s.now.elapsed }

/-- The end of a step: the TimerGate, unless the step faulted (40 R88). -/
def endStep (s : State) : State :=
  match s.fault with
  | none => timerGate s
  | some _ => s

end Sys2Proof.Machine
end

