-- ==== Sys2Proof/Machine/Step.lean ====
section
/-! DEFINITION. One step (spec 40 R81), and placing a word where the next step fetches. -/

namespace Sys2Proof.Machine

/-- The end of a step, put around what the handler answered (40 R88). -/
def finish : Host.Outcome State Fault Refusal → Host.Outcome State Fault Refusal
  | .next s => .next (endStep s)
  | .fault r => .fault r
  | .refused r => .refused r

/-- One step: on a faulted core nothing (40 R90); else sample the inputs, fetch, decode, advance, run the handler, and end
with the TimerGate (40 R81). A faulting fetch leaves pc as it is (40 R83). -/
def step (s : State) : Host.Outcome State Fault Refusal :=
  match s.fault with
  | some _ => .next (idle s)
  | none =>
    match fetch (sample s) with
    | .error f => .next (raise f (sample s))
    | .ok w => finish (exec (decode w) (beginHandler (sample s)))

/-- s with a word stored, high byte first, where step fetches next, and the latch clear so that step does fetch. A pc from
which no word can be fetched is put at the entry point first (log entry 10). -/
def State.withFetchWord (s : State) (nbits w : Nat) : State :=
  let at16 : Word := if s.pc.toNat < 0x0FFF then s.pc else 0x0200
  (((s.setPc at16).writeByte at16.toNat (highByte (tableWord nbits w))).writeByte (at16.toNat + 1)
    (lowByte (tableWord nbits w))).clearFault

end Sys2Proof.Machine
end

