-- ==== Sys2Proof/Machine/Reset.lean ====
section
/-! DEFINITION. The host's reset with a ROM (spec 70 R210 to R214): a host operation, no step. -/

namespace Sys2Proof.Machine

/-- Copy bytes to ascending addresses from base (20 R43). -/
def copyBytes (base : Nat) : List Byte → State → State
  | [], s => s
  | b :: rest, s => copyBytes (base + 1) rest (s.writeByte base b)

/-- Reset step (2): FONT_ROM is copied to 0x050..0x09F (70 R211). -/
def installFont (s : State) : State := copyBytes Config.fontBase s.params.font.toList s

/-- A bare reset of a running machine: every piece of state as after creation, with this machine's own FONT_ROM in place; the
parameters and what the host will present are not the core's and stay (70 R210, R211, R212; log entry 16). -/
def resetBare (s : State) : State :=
  installFont { State.reset with params := s.params, inputs := s.inputs, tick := s.tick }

/-- The creation of a machine with given parameters (10 R30, 70 R210): with the defaults it is State.reset. -/
def State.create (params : Params) : State := resetBare { State.reset with params := params }

/-- A ROM load: the reset, then the ROM copied from 0x200. An empty ROM is the loader's error (60 R186); for one over 3584
bytes no reset is defined (70 R214). -/
def loadRom (rom : List Byte) (s : State) : Host.Outcome State Fault Refusal :=
  if rom.length = 0 then .fault .invalidRom
  else if Config.romMax < rom.length then .refused .romTooLong
  else .next (copyBytes Config.progBase rom (resetBare s))

end Sys2Proof.Machine
end

