-- ==== Sys2Proof/Safety.lean ====
section
/-! DEFINITION. The terms claims are made in: the invariant of reachable states (spec 10 R31), faulted states, and what a
sprite draws, said pixel by pixel. -/

namespace Sys2Proof.Machine

/-- The invariant of the states a run reaches (10 R31), with the canonical form of memory and the parameters' range. -/
structure State.Inv (s : State) : Prop where
  /-- Memory is in canonical form, inside the address space (10 R22). -/
  mem_wf : Memory.wf s.mem = true
  /-- pc is at most 0x10FE (10 R31 (d)). -/
  pc_le : s.pc.toNat ≤ 0x10FE
  /-- I is at most 0x1000 (10 R31 (c)). -/
  i_le : s.i.toNat ≤ 0x1000
  /-- A stack entry is a pushed pc, at most 0x1000 (10 R31 (d)). -/
  stack_le : ∀ a ∈ s.stack, a.toNat ≤ 0x1000
  /-- The depth is never above STACK_DEPTH (10 R31 (b)). -/
  depth_le : ∀ depth, s.params.stackDepth = some depth → s.stack.length ≤ depth
  /-- The parameters are in the spec's range (00 R7). -/
  params_valid : s.params.Valid

/-- The core has faulted: no later step does anything (40 R90, 60 R191). -/
abbrev State.Faulted (s : State) : Prop := s.fault ≠ none

/-- The sprite, placed with its first pixel at column x0 and row y0, has a lit bit for the pixel at (x, y): bit 7 of a row
is its leftmost pixel (44 R148). -/
def spriteBit (x0 y0 : Nat) (rows : List Byte) (x y : Nat) : Bool :=
  decide (x0 ≤ x ∧ x < x0 + 8 ∧ y0 ≤ y ∧ y < y0 + rows.length) && (rows.getD (y - y0) 0).getLsbD (7 - (x - x0))

/-- Some pixel of the screen is on and lies under a lit bit of the sprite: a collision (44 R150). -/
def collides (s : State) (x0 y0 : Nat) (rows : List Byte) : Prop :=
  ∃ x y, s.pixel x y = true ∧ spriteBit x0 y0 rows x y = true

/-- Every byte of memory reads as before. -/
def State.SameMemory (s t : State) : Prop := ∀ a, t.readByte a = s.readByte a

/-- Only the general registers named by dst may differ: every other register, every byte of memory and every other piece of
state is as before. -/
def State.OnlyRegs (s t : State) (dst : Reg → Prop) : Prop :=
  t = { s with v := t.v } ∧ s.SameMemory t ∧ ∀ r, ¬ dst r → t.getV r = s.getV r

/-- Only pc may differ: every register, every byte of memory and every other piece of state is as before. -/
def State.OnlyPc (s t : State) : Prop :=
  t = { s with pc := t.pc } ∧ s.SameMemory t ∧ ∀ r, t.getV r = s.getV r

/-- The fields of a word, said by division rather than by the decoder (30 R61): the group, w[15:12]. -/
def wordGroup (w : Word) : Nat := w.toNat / 0x1000

/-- X, w[11:8] (30 R61). -/
def wordX (w : Word) : Reg := Fin.ofNat 16 (w.toNat / 0x100)

/-- Y, w[7:4] (30 R61). -/
def wordY (w : Word) : Reg := Fin.ofNat 16 (w.toNat / 0x10)

/-- N, w[3:0] (30 R61). -/
def wordN (w : Word) : Nibble := BitVec.ofNat 4 (w.toNat % 0x10)

/-- NN, w[7:0] (30 R61). -/
def wordNN (w : Word) : Byte := BitVec.ofNat 8 (w.toNat % 0x100)

/-- NNN, w[11:0] (30 R61). -/
def wordNNN (w : Word) : Addr12 := BitVec.ofNat 12 (w.toNat % 0x1000)

/-- The 13902 illegal words, said by their fields (30 R66, R68 to R71). -/
abbrev illegalWord (w : Word) : Prop :=
  (wordGroup w = 0x0 ∧ w ≠ 0x00E0 ∧ w ≠ 0x00EE) ∨
  (wordGroup w = 0x8 ∧ (w.toNat % 0x10 = 0xF ∨ (8 ≤ w.toNat % 0x10 ∧ w.toNat % 0x10 ≤ 0xD))) ∨
  (wordGroup w = 0xE ∧ w.toNat % 0x100 ≠ 0x9E ∧ w.toNat % 0x100 ≠ 0xA1) ∨
  (wordGroup w = 0xF ∧ w.toNat % 0x100 ∉ [0x07, 0x0A, 0x15, 0x18, 0x1E, 0x29, 0x33, 0x55, 0x65])

/-- The word a fetch at pc reads: high byte at the lower address (20 R46). -/
def State.wordAtPc (s : State) : Word :=
  BitVec.ofNat 16 ((s.readByte s.pc.toNat).toNat * 256 + (s.readByte (s.pc.toNat + 1)).toNat)

/-- An outcome with its next state changed, its stops left alone. -/
def mapNext (f : State → State) : Host.Outcome State Fault Refusal → Host.Outcome State Fault Refusal
  | .next s => .next (f s)
  | .fault r => .fault r
  | .refused r => .refused r

end Sys2Proof.Machine
end

