-- ==== Sys2Proof/Certificates/Slice0/Obligations.lean ====
section
/-! DEFINITION. The statements for the provers. Each docstring names the rules it formalises, or says that it rests on a
choice of the spec or of the model. The handler of an instruction, exec, runs on the state whose pc has already been advanced
(spec 40 R85). -/

open Sys2Proof Sys2Proof.Machine

/-! ### Encoding -/

/-- Twelve words written out from the opcode map (30 R65) decode to the instructions they stand for. -/
def Obligations.SampleWordsDecode : Prop :=
  decode 0x00E0 = .cls ∧ decode 0x00EE = .ret ∧ decode 0x0123 = .sys 0x123 ∧ decode 0x1ABC = .jp 0xABC ∧
  decode 0x3A42 = .seByte 10 0x42 ∧ decode 0x5AB7 = .seReg 10 11 7 ∧ decode 0x8564 = .addReg 5 6 ∧
  decode 0x850E = .shl 5 0 ∧ decode 0xB123 = .jpV0 0x123 ∧ decode 0xD893 = .drw 8 9 3 ∧ decode 0xE5A1 = .sknp 5 ∧
  decode 0xFF65 = .loadRegs 15

/-- Decoding the word of any well-formed instruction gives it back, every operand at every value (30 R61 to R70). -/
def Obligations.DecodeOfEncodeGivesInstrBack : Prop :=
  ∀ i : Instr, i.wellFormed = true → decode (encode i) = i

/-- The decoder is total and loses nothing: every one of the 65536 words decodes to a well-formed instruction whose word it
is (30 R75). -/
def Obligations.EveryWordDecodesAndEncodesBack : Prop :=
  ∀ w : Word, (decode w).wellFormed = true ∧ encode (decode w) = w

/-- The words that decode to SYS or to the catch-all are exactly the illegal words of 30 R71, said by their fields. -/
def Obligations.IllegalWordsAreExactlyTheUnsupported : Prop :=
  ∀ w : Word, illegalWord w ↔ (∃ nnn, decode w = .sys nnn) ∨ decode w = .illegal w

/-! ### The step -/

/-- When the core has not faulted and the word at pc decodes to a well-formed instruction, step is exec of it, with the
inputs sampled, pc advanced by 2 and REDRAW cleared before it, and the TimerGate after it unless it faulted (40 R81). -/
def Obligations.StepRunsDecodedInstruction : Prop :=
  ∀ (s : State) (i : Instr), s.fault = none → s.pc.toNat ≤ 0x0FFE → decode s.wordAtPc = i → i.wellFormed = true →
    let before := { s with
      pc := s.pc + 2, redraw := false, now := nextInput s, inputs := s.inputs.tail, tick := s.tick + 1 }
    (∀ t, exec i before = .next t → step s = .next (if t.fault = none then timerGate t else t)) ∧
    (∀ r, exec i before = .fault r → step s = .fault r) ∧ (∀ r, exec i before = .refused r → step s = .refused r)

/-- Every step answers a next state: the faults of the spec are taken, by setting the latch, and nothing stops the model.
That a fault is a next state is log entry 1. -/
def Obligations.EveryStepAnswersNextState : Prop :=
  ∀ s : State, ∃ t, step s = .next t

/-- A fetch from a pc above 0x0FFE faults with the lowest address that does not exist, and leaves pc and all else but the
sampled inputs unchanged. Rests on the spec's decisions D2 and D3. -/
def Obligations.FetchOutOfRangeFaults : Prop :=
  ∀ s : State, s.fault = none → 0x0FFE < s.pc.toNat →
    ∃ t, step s = .next t ∧
      t.fault = some (.memoryOutOfRange (if s.pc.toNat = 0x0FFF then 0x1000 else s.pc.setWidth 17)) ∧ t.redraw = false ∧
      t = { s with fault := t.fault, redraw := t.redraw, now := t.now, inputs := t.inputs, tick := t.tick }

/-- A faulted core never moves again: however many steps the host makes, nothing changes, REDRAW is 0 and TONE is as ST says.
Rests on the spec's decision D4. -/
def Obligations.FaultedCoreNeverMoves : Prop :=
  ∀ (s : State) (k : Nat), s.Faulted →
    ∃ t, Host.Core.run Sys2Proof.core (k + 1) s = .next t ∧ t = { s with redraw := false } ∧ t.tone = decide (0 < s.st.toNat)

/-- A step that faults changes nothing but the latch, REDRAW, the advance of pc, and the sampled inputs: no register, no byte
of memory, no timer, no pixel, no stack entry. Rests on the spec's decision D3. -/
def Obligations.FaultingStepChangesNothingElse : Prop :=
  ∀ s t : State, s.fault = none → step s = .next t → t.Faulted →
    s.SameMemory t ∧ (∀ r, t.getV r = s.getV r) ∧ (t.pc = s.pc ∨ t.pc = s.pc + 2) ∧ t.redraw = false ∧
    t = { s with
      fault := t.fault, redraw := t.redraw, pc := t.pc, now := t.now, inputs := t.inputs, tick := t.tick }

/-- A step over an illegal word records the word and its address + 2 and changes nothing else but pc and the sampled inputs;
SYS and the catch-all do so in every state. Rests on the spec's decisions D4 and D11. -/
def Obligations.IllegalWordsFault : Prop :=
  (∀ s : State, s.fault = none → s.pc.toNat ≤ 0x0FFE → illegalWord s.wordAtPc →
    ∃ t, step s = .next t ∧ t.fault = some (.unsupportedOpcode s.wordAtPc (s.pc + 2)) ∧ t.pc = s.pc + 2 ∧
      t.redraw = false ∧ s.SameMemory t ∧
      t = { s with
        fault := t.fault, redraw := t.redraw, pc := t.pc, now := t.now, inputs := t.inputs, tick := t.tick }) ∧
  (∀ (nnn : Addr12) (s : State), ∃ t, exec (.sys nnn) s = .next t ∧
    t.fault = some (.unsupportedOpcode (nnn.setWidth 16) s.pc) ∧ t.redraw = false ∧
    t = { s with fault := t.fault, redraw := t.redraw } ∧ s.SameMemory t) ∧
  (∀ (w : Word) (s : State), ∃ t, exec (.illegal w) s = .next t ∧ t.fault = some (.unsupportedOpcode w s.pc) ∧
    t.redraw = false ∧ t = { s with fault := t.fault, redraw := t.redraw } ∧ s.SameMemory t)

/-- The TimerGate, at the end of a step that did not fault: it fires when the accumulated time exceeds the threshold,
strictly; then each timer that is not zero is one lower and the accumulator is 0; else only the accumulator grows. A step that
faulted ends without it. Rests on the spec's decision D14. -/
def Obligations.TimerGateCountsBothTimersTogether : Prop :=
  ∀ s : State,
    (s.fault = none → s.params.timerThreshold < s.acc + s.now.elapsed →
      (endStep s).dt.toNat = s.dt.toNat - 1 ∧ (endStep s).st.toNat = s.st.toNat - 1 ∧ (endStep s).acc = 0) ∧
    (s.fault = none → ¬ s.params.timerThreshold < s.acc + s.now.elapsed →
      (endStep s).dt = s.dt ∧ (endStep s).st = s.st ∧ (endStep s).acc = s.acc + s.now.elapsed) ∧
    (s.Faulted → endStep s = s) ∧
    endStep s = { s with dt := (endStep s).dt, st := (endStep s).st, acc := (endStep s).acc }

/-! ### Invariants and whole-machine rules -/

/-- Reset meets the invariant of reachable states (10 R31). STACK_DEPTH 16 and the threshold's range at reset are the model's
defaults: log entries 4 and 5. -/
def Obligations.ResetMeetsReachableInvariant : Prop :=
  State.reset.Inv

/-- Every step keeps the invariant of reachable states: memory canonical, pc at most 0x10FE, I at most 0x1000, stack entries
at most 0x1000, depth at most STACK_DEPTH (10 R31). -/
def Obligations.StepKeepsReachableInvariant : Prop :=
  ∀ s t : State, s.Inv → step s = .next t → t.Inv

/-- A machine created with any parameters in range, a bare reset and the host's reset with a ROM meet the invariant too,
whatever state they start from and whatever FONT_ROM is. -/
def Obligations.RomLoadMeetsReachableInvariant : Prop :=
  (∀ p : Params, p.Valid → (State.create p).Inv) ∧
  (∀ s : State, s.params.Valid → (resetBare s).Inv) ∧
  ∀ (rom : List Byte) (s t : State), s.params.Valid → loadRom rom s = .next t → t.Inv

/-- The parameters, FONT_ROM among them, are fixed for the life of a machine: no step, no reset and no ROM load changes them
(70 R212). -/
def Obligations.ParametersNeverChange : Prop :=
  (∀ s t : State, step s = .next t → t.params = s.params) ∧
  (∀ s : State, (resetBare s).params = s.params) ∧
  (∀ (rom : List Byte) (s t : State), loadRom rom s = .next t → t.params = s.params)

/-- Who writes what, over all handlers and every field of State: memory only FX33 and FX55; a general register only the
instruction that names it as destination, FX65 with X at or above it, and for VF the flag writers; pc only the jumps, the
returns, the skips and FX0A; I only ANNN, FX1E, FX29, and FX55 and FX65 under the quirk; the stack only 2NNN and 00EE; DT only
FX15; ST only FX18; the frame buffer only 00E0 and DXYN; ACC none; the latch only the forms that can fault; REDRAW is set only
by 00E0 and DXYN and cleared only by a fault; the inputs, the tick and the parameters none (10 R32; the latch is the spec's
decision D4, REDRAW its decision D13). -/
def Obligations.EachStatePieceHasItsWriters : Prop :=
  ∀ (i : Instr) (s t : State), exec i s = .next t →
    (t.mem ≠ s.mem → ∃ x, i = .ldBcd x ∨ i = .storeRegs x) ∧
    (∀ r, t.getV r ≠ s.getV r →
      (∃ nn, i = .ldByte r nn ∨ i = .addByte r nn ∨ i = .rnd r nn) ∨
      (∃ y, i = .ldReg r y ∨ i = .orReg r y ∨ i = .andReg r y ∨ i = .xorReg r y ∨ i = .addReg r y ∨ i = .subReg r y ∨
        i = .shr r y ∨ i = .subnReg r y ∨ i = .shl r y) ∨
      i = .ldFromDt r ∨ i = .ldKey r ∨ (∃ x, r ≤ x ∧ i = .loadRegs x) ∨
      (r = VF ∧
        ((∃ x y, i = .addReg x y ∨ i = .subReg x y ∨ i = .shr x y ∨ i = .subnReg x y ∨ i = .shl x y) ∨
          (∃ x, i = .addI x) ∨ ∃ x y n, i = .drw x y n))) ∧
    (t.pc ≠ s.pc → i = .ret ∨ (∃ nnn, i = .jp nnn ∨ i = .call nnn ∨ i = .jpV0 nnn) ∨
      (∃ x nn, i = .seByte x nn ∨ i = .sneByte x nn) ∨ (∃ x y n, i = .seReg x y n ∨ i = .sneReg x y n) ∨
      ∃ x, i = .skp x ∨ i = .sknp x ∨ i = .ldKey x) ∧
    (t.fb ≠ s.fb → i = .cls ∨ ∃ x y n, i = .drw x y n) ∧
    (t.stack ≠ s.stack → i = .ret ∨ ∃ nnn, i = .call nnn) ∧
    (t.i ≠ s.i → (∃ nnn, i = .ldI nnn) ∨ ∃ x, i = .addI x ∨ i = .ldFont x ∨
      (s.now.quirks.storeLoadIncrement = true ∧ (i = .storeRegs x ∨ i = .loadRegs x))) ∧
    (t.dt ≠ s.dt → ∃ x, i = .ldDt x ∧ t.dt = s.getV x) ∧
    (t.st ≠ s.st → ∃ x, i = .ldSt x ∧ t.st = s.getV x) ∧
    t.acc = s.acc ∧
    (t.fault ≠ s.fault → i = .ret ∨ (∃ nnn, i = .sys nnn ∨ i = .call nnn) ∨ (∃ w, i = .illegal w) ∨
      (∃ x, i = .ldBcd x ∨ i = .storeRegs x ∨ i = .loadRegs x) ∨ ∃ x y n, i = .drw x y n) ∧
    (t.redraw ≠ s.redraw →
      (t.redraw = true ∧ (i = .cls ∨ ∃ x y n, i = .drw x y n)) ∨ (t.redraw = false ∧ t.Faulted)) ∧
    t.now = s.now ∧ t.inputs = s.inputs ∧ t.tick = s.tick ∧ t.params = s.params

/-- VF changes only when an instruction names register 15 as its destination, loads it through FX65 with X = 15, or is one of
the seven flag writers of 10 R15. -/
def Obligations.OnlyFlagWritersTouchVf : Prop :=
  ∀ (i : Instr) (s t : State), exec i s = .next t → t.getV VF ≠ s.getV VF →
    (∃ x y, i = .addReg x y ∨ i = .subReg x y ∨ i = .shr x y ∨ i = .subnReg x y ∨ i = .shl x y) ∨
    (∃ x, i = .addI x) ∨ (∃ x y n, i = .drw x y n) ∨
    (∃ nn, i = .ldByte VF nn ∨ i = .addByte VF nn ∨ i = .rnd VF nn) ∨
    (∃ y, i = .ldReg VF y ∨ i = .orReg VF y ∨ i = .andReg VF y ∨ i = .xorReg VF y) ∨
    i = .ldFromDt VF ∨ i = .ldKey VF ∨ i = .loadRegs VF

/-- The random byte reaches CXNN and nothing else (10 R27). -/
def Obligations.RandomByteReachesOnlyRnd : Prop :=
  ∀ (i : Instr) (s : State) (b : Byte), (∀ x nn, i ≠ .rnd x nn) →
    exec i { s with now := { s.now with rnd := b } } =
      mapNext (fun t => { t with now := { t.now with rnd := b } }) (exec i s)

/-- The key snapshot, and the model's key pick, reach EX9E, EXA1 and FX0A and nothing else (10 R25). -/
def Obligations.KeysReachOnlyKeyInstructions : Prop :=
  ∀ (i : Instr) (s : State) (keys : BitVec 16) (pick : Option Key), (∀ x, i ≠ .skp x ∧ i ≠ .sknp x ∧ i ≠ .ldKey x) →
    exec i { s with now := { s.now with keys := keys, keyPick := pick } } =
      mapNext (fun t => { t with now := { t.now with keys := keys, keyPick := pick } }) (exec i s)

/-- Each quirk reaches the instructions the spec names and nothing else: 8XY6 and 8XYE, BNNN, FX55 and FX65 (10 R26). -/
def Obligations.QuirksReachOnlyTheirInstructions : Prop :=
  ∀ (i : Instr) (s : State) (b : Bool),
    ((∀ x y, i ≠ .shr x y ∧ i ≠ .shl x y) →
      exec i { s with now := { s.now with quirks := { s.now.quirks with shiftSource := b } } } =
        mapNext (fun t => { t with now := { t.now with quirks := { t.now.quirks with shiftSource := b } } }) (exec i s)) ∧
    ((∀ nnn, i ≠ .jpV0 nnn) →
      exec i { s with now := { s.now with quirks := { s.now.quirks with jumpOffset := b } } } =
        mapNext (fun t => { t with now := { t.now with quirks := { t.now.quirks with jumpOffset := b } } }) (exec i s)) ∧
    ((∀ x, i ≠ .storeRegs x ∧ i ≠ .loadRegs x) →
      exec i { s with now := { s.now with quirks := { s.now.quirks with storeLoadIncrement := b } } } =
        mapNext (fun t => { t with now := { t.now with quirks := { t.now.quirks with storeLoadIncrement := b } } })
          (exec i s))

/-- The elapsed time reaches no handler: only the TimerGate uses it (10 R28). -/
def Obligations.ElapsedTimeReachesNoHandler : Prop :=
  ∀ (i : Instr) (s : State) (e : Nat),
    exec i { s with now := { s.now with elapsed := e } } =
      mapNext (fun t => { t with now := { t.now with elapsed := e } }) (exec i s)

/-! ### Reset -/

/-- What a bare reset leaves, whatever the state before (10 R30, with ACC and FAULT by the spec's decision D23): every register,
timer and pixel 0, pc 0x200, an empty stack, no fault, this machine's FONT_ROM at 0x050, and zero in all other memory. The
creation with the default parameters is State.reset. What stays, the parameters and the host's side, is log entry 16. -/
def Obligations.ResetLeavesTheStatedValues : Prop :=
  State.create Params.standard = State.reset ∧
  ∀ s : State,
    let t := resetBare s
    (∀ r, t.getV r = 0) ∧ t.pc = 0x0200 ∧ t.i = 0 ∧ t.stack = [] ∧ t.dt = 0 ∧ t.st = 0 ∧ (∀ x y, t.pixel x y = false) ∧
    t.acc = 0 ∧ t.fault = none ∧ (∀ k : Fin 80, t.readByte (0x050 + k.val) = s.params.font[k.val]) ∧
    (∀ a, (a < 0x050 ∨ 0x0A0 ≤ a) → t.readByte a = 0) ∧
    t = { State.reset with mem := t.mem, params := s.params, inputs := s.inputs, tick := s.tick }

/-- A ROM of 1 to 3584 bytes is copied from 0x200, this machine's FONT_ROM is at 0x050, zero is everywhere else, and every other
piece of state is at its reset value whatever it was before, but for the parameters and the host's side (70 R211, R212; the
spec's decisions D17 and D23; log entry 16). -/
def Obligations.RomLoadPlacesTheRom : Prop :=
  ∀ (rom : List Byte) (s : State), 1 ≤ rom.length → rom.length ≤ 3584 →
    ∃ t, loadRom rom s = .next t ∧ (∀ k, k < rom.length → t.readByte (0x200 + k) = rom.getD k 0) ∧
      (∀ k : Fin 80, t.readByte (0x050 + k.val) = s.params.font[k.val]) ∧
      (∀ a, (a < 0x050 ∨ (0x0A0 ≤ a ∧ a < 0x200) ∨ 0x200 + rom.length ≤ a) → t.readByte a = 0) ∧
      t = { State.reset with mem := t.mem, params := s.params, inputs := s.inputs, tick := s.tick }

/-- An empty ROM is the loader's error, and a ROM over 3584 bytes is refused: the only stops of the model. The refusal is the
spec's decision D17. -/
def Obligations.RomLoadStopsOnBadLength : Prop :=
  ∀ (rom : List Byte) (s : State),
    (loadRom rom s = .fault .invalidRom ↔ rom.length = 0) ∧ (loadRom rom s = .refused .romTooLong ↔ 3584 < rom.length)

/-- With no ROM loaded the first step meets the word 0x0000 and faults, as 70 R210 says. That the fault is a next state with the
latch set is the spec's decision D4 (log entry 1); that the recorded pc is the word's address + 2 is its decision D11 (log entry
19). -/
def Obligations.BareResetFaultsOnFirstStep : Prop :=
  ∃ t, step State.reset = .next t ∧ t.fault = some (.unsupportedOpcode 0x0000 0x0202) ∧ t.pc = 0x0202

/-! ### Control transfer -/

/-- 1NNN: pc becomes NNN and nothing else changes (41 R98). -/
def Obligations.JpSetsPc : Prop :=
  (∀ w, wordGroup w = 1 → decode w = .jp (wordNNN w)) ∧
  ∀ (nnn : Addr12) (s : State), ∃ t, exec (.jp nnn) s = .next t ∧ t.pc.toNat = nnn.toNat ∧ s.OnlyPc t

/-- 2NNN: with room on the stack, the address of the next instruction is pushed and pc becomes NNN; with the stack at
STACK_DEPTH, StackOverflow and nothing else. Rests on the spec's decision D7. -/
def Obligations.CallPushesNextAddress : Prop :=
  (∀ w, wordGroup w = 2 → decode w = .call (wordNNN w)) ∧
  ∀ (nnn : Addr12) (s : State),
    (s.params.stackDepth ≠ some s.stack.length →
      ∃ t, exec (.call nnn) s = .next t ∧ t.pc.toNat = nnn.toNat ∧ t.stack = s.pc :: s.stack ∧
        t = { s with pc := t.pc, stack := t.stack } ∧ s.SameMemory t) ∧
    (s.params.stackDepth = some s.stack.length →
      ∃ t, exec (.call nnn) s = .next t ∧ t.fault = some .stackOverflow ∧ t.redraw = false ∧
        t = { s with fault := t.fault, redraw := t.redraw } ∧ s.SameMemory t)

/-- 00EE: the most recently pushed value becomes pc; on an empty stack, StackUnderflow and nothing else. That the fault is
latched is the spec's decision D4. -/
def Obligations.RetPopsReturnAddress : Prop :=
  decode 0x00EE = .ret ∧
  ∀ s : State,
    (∀ top rest, s.stack = top :: rest →
      ∃ t, exec .ret s = .next t ∧ t.pc = top ∧ t.stack = rest ∧ t = { s with pc := t.pc, stack := t.stack } ∧
        s.SameMemory t) ∧
    (s.stack = [] →
      ∃ t, exec .ret s = .next t ∧ t.fault = some .stackUnderflow ∧ t.redraw = false ∧
        t = { s with fault := t.fault, redraw := t.redraw } ∧ s.SameMemory t)

/-- CALL then RETURN: whatever the subroutine did, if it left the stack as it found it, RETURN gives pc the address after the
CALL and the stack its depth and contents before it (95 S3). -/
def Obligations.CallThenRetIsBalanced : Prop :=
  ∀ (nnn : Addr12) (s : State), s.params.stackDepth ≠ some s.stack.length →
    ∃ t, exec (.call nnn) s = .next t ∧
      ∀ u : State, u.stack = t.stack → ∃ r, exec .ret u = .next r ∧ r.pc = s.pc ∧ r.stack = s.stack

/-- 3XNN and 4XNN: pc is 2 further exactly when V[X] equals, or differs from, NN; nothing else changes (41 R100, R101). -/
def Obligations.ByteComparesSkip : Prop :=
  (∀ w, wordGroup w = 3 → decode w = .seByte (wordX w) (wordNN w)) ∧
  (∀ w, wordGroup w = 4 → decode w = .sneByte (wordX w) (wordNN w)) ∧
  ∀ (x : Reg) (nn : Byte) (s : State),
    (∃ t, exec (.seByte x nn) s = .next t ∧ t.pc = (if s.getV x = nn then s.pc + 2 else s.pc) ∧ s.OnlyPc t) ∧
    (∃ t, exec (.sneByte x nn) s = .next t ∧ t.pc = (if s.getV x = nn then s.pc else s.pc + 2) ∧ s.OnlyPc t)

/-- 5XYN and 9XYN, whatever N is: pc is 2 further exactly when V[X] and V[Y] are equal, or differ; nothing else changes. That N
is ignored is the spec's decision D10. -/
def Obligations.RegisterComparesSkip : Prop :=
  (∀ w, wordGroup w = 5 → decode w = .seReg (wordX w) (wordY w) (wordN w)) ∧
  (∀ w, wordGroup w = 9 → decode w = .sneReg (wordX w) (wordY w) (wordN w)) ∧
  ∀ (x y : Reg) (n : Nibble) (s : State),
    (∃ t, exec (.seReg x y n) s = .next t ∧ t.pc = (if s.getV x = s.getV y then s.pc + 2 else s.pc) ∧ s.OnlyPc t) ∧
    (∃ t, exec (.sneReg x y n) s = .next t ∧ t.pc = (if s.getV x = s.getV y then s.pc else s.pc + 2) ∧ s.OnlyPc t)

/-- BNNN: pc becomes V[0] + NNN under the jump-offset quirk, else V[X] + NNN with X the top nibble of NNN, not masked to 12
bits; nothing else changes (41 R104). -/
def Obligations.JpV0AddsRegister : Prop :=
  (∀ w, wordGroup w = 0xB → decode w = .jpV0 (wordNNN w)) ∧
  ∀ (nnn : Addr12) (s : State), ∃ t, exec (.jpV0 nnn) s = .next t ∧
    t.pc.toNat =
      (s.getV (if s.now.quirks.jumpOffset = true then 0 else Fin.ofNat 16 (nnn.toNat / 0x100))).toNat + nnn.toNat ∧
    s.OnlyPc t

/-! ### ALU -/

/-- 6XNN and 8XY0: V[X] becomes NN, or V[Y]; nothing else changes (42 R111, R113). -/
def Obligations.LoadsSetVx : Prop :=
  (∀ w, wordGroup w = 6 → decode w = .ldByte (wordX w) (wordNN w)) ∧
  (∀ w, wordGroup w = 8 → w.toNat % 16 = 0 → decode w = .ldReg (wordX w) (wordY w)) ∧
  (∀ (x : Reg) (nn : Byte) (s : State),
    ∃ t, exec (.ldByte x nn) s = .next t ∧ t.getV x = nn ∧ s.OnlyRegs t (fun r => r = x)) ∧
  (∀ (x y : Reg) (s : State),
    ∃ t, exec (.ldReg x y) s = .next t ∧ t.getV x = s.getV y ∧ s.OnlyRegs t (fun r => r = x))

/-- 7XNN: V[X] becomes the sum mod 256; VF and all else unchanged unless X names it (42 R112). -/
def Obligations.AddByteWrapsWithoutFlag : Prop :=
  (∀ w, wordGroup w = 7 → decode w = .addByte (wordX w) (wordNN w)) ∧
  ∀ (x : Reg) (nn : Byte) (s : State),
    ∃ t, exec (.addByte x nn) s = .next t ∧ (t.getV x).toNat = ((s.getV x).toNat + nn.toNat) % 256 ∧
      s.OnlyRegs t (fun r => r = x)

/-- 8XY1, 8XY2, 8XY3: V[X] becomes the bitwise OR, AND, XOR, bit by bit; VF and all else unchanged unless X names it (42 R114,
R115, R116). -/
def Obligations.LogicOpsWorkBitwise : Prop :=
  (∀ w, wordGroup w = 8 → w.toNat % 16 = 1 → decode w = .orReg (wordX w) (wordY w)) ∧
  (∀ w, wordGroup w = 8 → w.toNat % 16 = 2 → decode w = .andReg (wordX w) (wordY w)) ∧
  (∀ w, wordGroup w = 8 → w.toNat % 16 = 3 → decode w = .xorReg (wordX w) (wordY w)) ∧
  ∀ (x y : Reg) (s : State),
    (∃ t, exec (.orReg x y) s = .next t ∧ s.OnlyRegs t (fun r => r = x) ∧
      ∀ k, (t.getV x).getLsbD k = ((s.getV x).getLsbD k || (s.getV y).getLsbD k)) ∧
    (∃ t, exec (.andReg x y) s = .next t ∧ s.OnlyRegs t (fun r => r = x) ∧
      ∀ k, (t.getV x).getLsbD k = ((s.getV x).getLsbD k && (s.getV y).getLsbD k)) ∧
    (∃ t, exec (.xorReg x y) s = .next t ∧ s.OnlyRegs t (fun r => r = x) ∧
      ∀ k, (t.getV x).getLsbD k = ((s.getV x).getLsbD k != (s.getV y).getLsbD k))

/-- 8XY4: VF becomes the carry of the integer sum, then V[X] the sum mod 256 (42 R117). That with X = 15
the sum stays is the spec's decision D5 (log entry 12). -/
def Obligations.AddSetsCarry : Prop :=
  (∀ w, wordGroup w = 8 → w.toNat % 16 = 4 → decode w = .addReg (wordX w) (wordY w)) ∧
  ∀ (x y : Reg) (s : State),
    let sum := (s.getV x).toNat + (s.getV y).toNat
    ∃ t, exec (.addReg x y) s = .next t ∧ (t.getV x).toNat = sum % 256 ∧
      (x ≠ VF → (t.getV VF).toNat = if 255 < sum then 1 else 0) ∧ s.OnlyRegs t (fun r => r = x ∨ r = VF)

/-- 8XY5: VF becomes V[X] > V[Y], strictly; then V[X] becomes V[X] - V[Y] mod 256 (42 R118). That both
are read after VF was written, which X = 15 and Y = 15 show, is the spec's decision D5 (log entry 12). -/
def Obligations.SubSetsGreaterFlag : Prop :=
  (∀ w, wordGroup w = 8 → w.toNat % 16 = 5 → decode w = .subReg (wordX w) (wordY w)) ∧
  ∀ (x y : Reg) (s : State),
    let f := if (s.getV y).toNat < (s.getV x).toNat then 1 else 0
    let a := if x = VF then f else (s.getV x).toNat
    let b := if y = VF then f else (s.getV y).toNat
    ∃ t, exec (.subReg x y) s = .next t ∧ (t.getV x).toNat = (a + 256 - b) % 256 ∧
      (x ≠ VF → (t.getV VF).toNat = f) ∧ s.OnlyRegs t (fun r => r = x ∨ r = VF)

/-- 8XY7: VF becomes V[Y] > V[X], strictly; then V[X] becomes V[Y] - V[X] mod 256 (42 R120). That both
are read after VF was written, which X = 15 and Y = 15 show, is the spec's decision D5 (log entry 12). -/
def Obligations.SubnSetsGreaterFlag : Prop :=
  (∀ w, wordGroup w = 8 → w.toNat % 16 = 7 → decode w = .subnReg (wordX w) (wordY w)) ∧
  ∀ (x y : Reg) (s : State),
    let f := if (s.getV x).toNat < (s.getV y).toNat then 1 else 0
    let a := if x = VF then f else (s.getV x).toNat
    let b := if y = VF then f else (s.getV y).toNat
    ∃ t, exec (.subnReg x y) s = .next t ∧ (t.getV x).toNat = (b + 256 - a) % 256 ∧
      (x ≠ VF → (t.getV VF).toNat = f) ∧ s.OnlyRegs t (fun r => r = x ∨ r = VF)

/-- 8XY6: the source is V[Y] under the shift-source quirk, else V[X]; VF becomes its bit 0; then V[X] is the source halved
(42 R119). That with X = 15 the flag just written is halved is the spec's decision D5 (log entry 12). -/
def Obligations.ShrShiftsLowBitIntoVf : Prop :=
  (∀ w, wordGroup w = 8 → w.toNat % 16 = 6 → decode w = .shr (wordX w) (wordY w)) ∧
  ∀ (x y : Reg) (s : State),
    let source := (if s.now.quirks.shiftSource = true then s.getV y else s.getV x).toNat
    ∃ t, exec (.shr x y) s = .next t ∧ (t.getV x).toNat = (if x = VF then source % 2 else source) / 2 ∧
      (x ≠ VF → (t.getV VF).toNat = source % 2) ∧ s.OnlyRegs t (fun r => r = x ∨ r = VF)

/-- 8XYE: the source is V[Y] under the shift-source quirk, else V[X]; VF becomes its bit 7; then V[X] is the source doubled mod
256 (42 R121). That with X = 15 the flag just written is doubled is the spec's decision D5 (log entry 12). -/
def Obligations.ShlShiftsHighBitIntoVf : Prop :=
  (∀ w, wordGroup w = 8 → w.toNat % 16 = 0xE → decode w = .shl (wordX w) (wordY w)) ∧
  ∀ (x y : Reg) (s : State),
    let source := (if s.now.quirks.shiftSource = true then s.getV y else s.getV x).toNat
    ∃ t, exec (.shl x y) s = .next t ∧ (t.getV x).toNat = 2 * (if x = VF then source / 128 else source) % 256 ∧
      (x ≠ VF → (t.getV VF).toNat = source / 128) ∧ s.OnlyRegs t (fun r => r = x ∨ r = VF)

/-- CXNN: V[X] becomes this step's random byte AND NN, whatever that byte is; nothing else changes (42 R122). -/
def Obligations.RndMasksRandomByte : Prop :=
  (∀ w, wordGroup w = 0xC → decode w = .rnd (wordX w) (wordNN w)) ∧
  ∀ (x : Reg) (nn : Byte) (s : State),
    ∃ t, exec (.rnd x nn) s = .next t ∧ s.OnlyRegs t (fun r => r = x) ∧
      ∀ k, (t.getV x).getLsbD k = (s.now.rnd.getLsbD k && nn.getLsbD k)

/-- The aliasing table of the flag writers with VF as an operand, cell by cell; r stands for the register that is not VF. The
spec's decision D5 (log entry 12): the values follow from its statement order. -/
def Obligations.AliasingWithVfFollowsTheTable : Prop :=
  ∀ (r : Reg) (s t : State), r ≠ VF →
    let vr := (s.getV r).toNat
    let vf := (s.getV VF).toNat
    let q := s.now.quirks.shiftSource
    let above := if vf < vr then 1 else 0
    let below := if vr < vf then 1 else 0
    (exec (.addReg r VF) s = .next t →
      (t.getV r).toNat = (vr + vf) % 256 ∧ (t.getV VF).toNat = if 255 < vr + vf then 1 else 0) ∧
    (exec (.addReg VF r) s = .next t → (t.getV VF).toNat = (vf + vr) % 256) ∧
    (exec (.addReg VF VF) s = .next t → (t.getV VF).toNat = 2 * vf % 256) ∧
    (exec (.subReg r VF) s = .next t → (t.getV r).toNat = vr - above ∧ (t.getV VF).toNat = above) ∧
    (exec (.subReg VF r) s = .next t → (t.getV VF).toNat = (below + 256 - vr) % 256) ∧
    (exec (.subReg VF VF) s = .next t → (t.getV VF).toNat = 0) ∧
    (exec (.subnReg r VF) s = .next t → (t.getV r).toNat = (below + 256 - vr) % 256 ∧ (t.getV VF).toNat = below) ∧
    (exec (.subnReg VF r) s = .next t → (t.getV VF).toNat = vr - above) ∧
    (exec (.subnReg VF VF) s = .next t → (t.getV VF).toNat = 0) ∧
    (exec (.shr r VF) s = .next t →
      (t.getV r).toNat = (if q = true then vf else vr) / 2 ∧ (t.getV VF).toNat = (if q = true then vf else vr) % 2) ∧
    (exec (.shr VF r) s = .next t → (t.getV VF).toNat = 0) ∧
    (exec (.shr VF VF) s = .next t → (t.getV VF).toNat = 0) ∧
    (exec (.shl r VF) s = .next t →
      (t.getV r).toNat = 2 * (if q = true then vf else vr) % 256 ∧
      (t.getV VF).toNat = (if q = true then vf else vr) / 128) ∧
    (exec (.shl VF r) s = .next t → (t.getV VF).toNat = 2 * ((if q = true then vr else vf) / 128)) ∧
    (exec (.shl VF VF) s = .next t → (t.getV VF).toNat = 2 * (vf / 128))

/-! ### Index register and memory -/

/-- ANNN: I becomes NNN and nothing else changes (43 R131). -/
def Obligations.LdISetsIndex : Prop :=
  (∀ w, wordGroup w = 0xA → decode w = .ldI (wordNNN w)) ∧
  ∀ (nnn : Addr12) (s : State),
    ∃ t, exec (.ldI nnn) s = .next t ∧ t.i.toNat = nnn.toNat ∧ t = { s with i := t.i } ∧ s.SameMemory t

/-- FX1E: VF becomes whether I + V[X] exceeds 0x0FFF, and I the sum, modulo 0x0FFF when it does; with X = 15 the sum uses the
old VF; nothing else changes (43 R132). -/
def Obligations.AddIWrapsModulo4095 : Prop :=
  (∀ w, wordGroup w = 0xF → w.toNat % 0x100 = 0x1E → decode w = .addI (wordX w)) ∧
  ∀ (x : Reg) (s : State),
    let sum := s.i.toNat + (s.getV x).toNat
    ∃ t, exec (.addI x) s = .next t ∧ t.i.toNat = (if 0x0FFF < sum then sum % 4095 else sum) ∧
      (t.getV VF).toNat = (if 0x0FFF < sum then 1 else 0) ∧ (∀ r, r ≠ VF → t.getV r = s.getV r) ∧
      t = { s with i := t.i, v := t.v } ∧ s.SameMemory t

/-- FX29: I becomes 0x50 + 5 * V[X], of the full byte; nothing else changes (43 R133). -/
def Obligations.LdFontAddressesGlyph : Prop :=
  (∀ w, wordGroup w = 0xF → w.toNat % 0x100 = 0x29 → decode w = .ldFont (wordX w)) ∧
  ∀ (x : Reg) (s : State),
    ∃ t, exec (.ldFont x) s = .next t ∧ t.i.toNat = 0x50 + 5 * (s.getV x).toNat ∧ t = { s with i := t.i } ∧ s.SameMemory t

/-- FX33 in range: the three bytes at I are the decimal digits of V[X], hundreds first, and nothing else changes, no other byte
of memory either. The range condition is the spec's decision D2. -/
def Obligations.LdBcdStoresDigits : Prop :=
  (∀ w, wordGroup w = 0xF → w.toNat % 0x100 = 0x33 → decode w = .ldBcd (wordX w)) ∧
  ∀ (x : Reg) (s : State), Memory.wf s.mem = true → s.i.toNat + 2 ≤ 0x0FFF →
    ∃ t, exec (.ldBcd x) s = .next t ∧
      (t.readByte s.i.toNat).toNat < 3 ∧ (t.readByte (s.i.toNat + 1)).toNat < 10 ∧ (t.readByte (s.i.toNat + 2)).toNat < 10 ∧
      100 * (t.readByte s.i.toNat).toNat + 10 * (t.readByte (s.i.toNat + 1)).toNat + (t.readByte (s.i.toNat + 2)).toNat =
        (s.getV x).toNat ∧
      (∀ a, (a < s.i.toNat ∨ s.i.toNat + 2 < a) → t.readByte a = s.readByte a) ∧ t = { s with mem := t.mem }

/-- FX55 in range: byte k of the X + 1 bytes at I is V[k]; no other byte changes; I is X + 1 further under the quirk, else
unchanged; nothing else changes. The range condition is the spec's decision D2. -/
def Obligations.StoreRegsWritesRange : Prop :=
  (∀ w, wordGroup w = 0xF → w.toNat % 0x100 = 0x55 → decode w = .storeRegs (wordX w)) ∧
  ∀ (x : Reg) (s : State), Memory.wf s.mem = true → s.i.toNat + x.val ≤ 0x0FFF →
    ∃ t, exec (.storeRegs x) s = .next t ∧ (∀ k : Reg, k ≤ x → t.readByte (s.i.toNat + k.val) = s.getV k) ∧
      (∀ a, (a < s.i.toNat ∨ s.i.toNat + x.val < a) → t.readByte a = s.readByte a) ∧
      t.i.toNat = (if s.now.quirks.storeLoadIncrement = true then s.i.toNat + x.val + 1 else s.i.toNat) ∧
      t = { s with mem := t.mem, i := t.i }

/-- FX65 in range: V[k] for k up to X is byte k at I; the registers above X, memory and all else are unchanged, but I, which is
X + 1 further under the quirk. The range condition is the spec's decision D2. -/
def Obligations.LoadRegsReadsRange : Prop :=
  (∀ w, wordGroup w = 0xF → w.toNat % 0x100 = 0x65 → decode w = .loadRegs (wordX w)) ∧
  ∀ (x : Reg) (s : State), s.i.toNat + x.val ≤ 0x0FFF →
    ∃ t, exec (.loadRegs x) s = .next t ∧ (∀ k : Reg, k ≤ x → t.getV k = s.readByte (s.i.toNat + k.val)) ∧
      (∀ k : Reg, x < k → t.getV k = s.getV k) ∧
      t.i.toNat = (if s.now.quirks.storeLoadIncrement = true then s.i.toNat + x.val + 1 else s.i.toNat) ∧
      t = { s with v := t.v, i := t.i } ∧ s.SameMemory t

/-- The data instructions out of range: MemoryOutOfRange with the lowest address that does not exist, and no register, no byte,
no pixel and not I is changed; DXYN with N = 0 makes no access and never does this. Rests on the spec's decisions D2 and D3. -/
def Obligations.DataAccessOutOfRangeFaults : Prop :=
  ∀ (i : Instr) (len : Nat) (s : State),
    ((∃ x, i = .ldBcd x ∧ len = 3) ∨ (∃ x, (i = .storeRegs x ∨ i = .loadRegs x) ∧ len = x.val + 1) ∨
      (∃ x y n, i = .drw x y n ∧ 1 ≤ n.toNat ∧ len = n.toNat)) →
    0x0FFF < s.i.toNat + len - 1 →
    ∃ t, exec i s = .next t ∧
      t.fault = some (.memoryOutOfRange (if s.i.toNat < 0x1000 then 0x1000 else s.i.setWidth 17)) ∧ t.redraw = false ∧
      t = { s with fault := t.fault, redraw := t.redraw } ∧ s.SameMemory t

/-- What FX55 stores, FX65 loads back: into a machine with any registers whose memory and I are those after the store without
the quirk, or with I set back, V[0..X] come out as they were stored (95 S9). -/
def Obligations.StoreThenLoadRoundTrips : Prop :=
  ∀ (x : Reg) (s t u : State), Memory.wf s.mem = true → s.i.toNat + x.val ≤ 0x0FFF →
    exec (.storeRegs x) s = .next t → u.mem = t.mem → u.i = s.i →
    ∃ r, exec (.loadRegs x) u = .next r ∧ ∀ k : Reg, k ≤ x → r.getV k = s.getV k

/-- A store is seen by the very next fetch: after FX55 with X at least 1, a core whose pc is the stored address fetches the word
V[0] * 256 + V[1] (20 R54). -/
def Obligations.NextFetchSeesStores : Prop :=
  ∀ (x : Reg) (s t : State), Memory.wf s.mem = true → s.i.toNat + x.val ≤ 0x0FFF → 1 ≤ x.val →
    exec (.storeRegs x) s = .next t → t.pc = s.i →
    ∃ w : Word, fetch t = .ok w ∧ w.toNat = (s.getV 0).toNat * 256 + (s.getV 1).toNat

/-! ### Display -/

/-- 00E0: every pixel is off and REDRAW is 1, and nothing else changes (44 R146). -/
def Obligations.ClsClearsScreen : Prop :=
  decode 0x00E0 = .cls ∧
  ∀ s : State, ∃ t, exec .cls s = .next t ∧ (∀ x y, t.pixel x y = false) ∧ t.redraw = true ∧
    t = { s with fb := t.fb, redraw := t.redraw } ∧ s.SameMemory t

/-- DXYN in range refines the pixel picture: every pixel of the screen is toggled exactly under a lit bit of the sprite placed
at (V[X] mod 64, V[Y] mod 32), clipped at the edges; VF is 1 exactly on a collision, else 0; REDRAW is 1; nothing else changes.
That the coordinates are read before VF is cleared, and the range check on clipped rows, are the spec's decision D6. -/
def Obligations.DrwXorsSpriteOntoScreen : Prop :=
  (∀ w, wordGroup w = 0xD → decode w = .drw (wordX w) (wordY w) (wordN w)) ∧
  ∀ (x y : Reg) (n : Nibble) (s : State), (n = 0 ∨ s.i.toNat + n.toNat - 1 ≤ 0x0FFF) →
    let rows := (List.range n.toNat).map (fun r => s.readByte (s.i.toNat + r))
    let x0 := (s.getV x).toNat % 64
    let y0 := (s.getV y).toNat % 32
    ∃ t, exec (.drw x y n) s = .next t ∧
      (∀ px py, px < 64 → py < 32 → t.pixel px py = (s.pixel px py != spriteBit x0 y0 rows px py)) ∧
      (collides s x0 y0 rows → t.getV VF = 1) ∧ (¬ collides s x0 y0 rows → t.getV VF = 0) ∧
      (∀ r, r ≠ VF → t.getV r = s.getV r) ∧ t.redraw = true ∧
      t = { s with fb := t.fb, v := t.v, redraw := t.redraw } ∧ s.SameMemory t

/-- The same sprite drawn twice at the same place, with coordinates not taken from VF, leaves every pixel as it was, and the
second draw collides exactly when the first turned some pixel on. -/
def Obligations.DrawingTwiceRestoresScreen : Prop :=
  ∀ (x y : Reg) (n : Nibble) (s : State), x ≠ VF → y ≠ VF → (n = 0 ∨ s.i.toNat + n.toNat - 1 ≤ 0x0FFF) →
    ∃ t u, exec (.drw x y n) s = .next t ∧ exec (.drw x y n) t = .next u ∧
      (∀ px py, u.pixel px py = s.pixel px py) ∧
      (u.getV VF = 1 ↔ ∃ px py, s.pixel px py = false ∧ t.pixel px py = true)

/-- The blit engine handed a start row of 32 or more changes nothing: every row is clipped (95 S7, C1). -/
def Obligations.BlitBelowScreenDrawsNothing : Prop :=
  ∀ (x0 y0 : Nat) (rows : List Byte) (s : State), 32 ≤ y0 → blit x0 y0 rows s = s

/-! ### Keypad and timers -/

/-- EX9E and EXA1, in both modes of KEY_OPERAND_MODE: pc is 2 further exactly when the key meant is down, or is not down; in
register mode a value above 15 names no key. Rests on the spec's decision D9. -/
def Obligations.KeySkipsTestTheKey : Prop :=
  (∀ w, wordGroup w = 0xE → w.toNat % 0x100 = 0x9E → decode w = .skp (wordX w)) ∧
  (∀ w, wordGroup w = 0xE → w.toNat % 0x100 = 0xA1 → decode w = .sknp (wordX w)) ∧
  ∀ (x : Reg) (s : State) (down : Bool),
    ((s.params.keyOperandMode = .field ∧ down = s.now.keys.getLsbD x.val) ∨
      (s.params.keyOperandMode = .register ∧ (s.getV x).toNat ≤ 15 ∧ down = s.now.keys.getLsbD (s.getV x).toNat) ∨
      (s.params.keyOperandMode = .register ∧ 15 < (s.getV x).toNat ∧ down = false)) →
    (∃ t, exec (.skp x) s = .next t ∧ t.pc = (if down = true then s.pc + 2 else s.pc) ∧ s.OnlyPc t) ∧
    (∃ t, exec (.sknp x) s = .next t ∧ t.pc = (if down = true then s.pc else s.pc + 2) ∧ s.OnlyPc t)

/-- FX0A: with no key down, pc goes back by 2 and nothing else changes; with any key down, V[X] becomes the code of a key that
is down, the lowest one when the host picks none, and nothing else changes. Rests on the spec's decision D8 (log entry 6). -/
def Obligations.LdKeyWaitsForAKey : Prop :=
  (∀ w, wordGroup w = 0xF → w.toNat % 0x100 = 0x0A → decode w = .ldKey (wordX w)) ∧
  ∀ (x : Reg) (s : State),
    (s.now.keys = 0 → ∃ t, exec (.ldKey x) s = .next t ∧ t.pc = s.pc - 2 ∧ s.OnlyPc t) ∧
    (s.now.keys ≠ 0 → ∃ t, exec (.ldKey x) s = .next t ∧ s.OnlyRegs t (fun r => r = x) ∧ (t.getV x).toNat ≤ 15 ∧
      s.now.keys.getLsbD (t.getV x).toNat = true ∧
      (s.now.keyPick = none → ∀ k, k < (t.getV x).toNat → s.now.keys.getLsbD k = false) ∧
      (∀ k : Key, s.now.keyPick = some k → s.now.keys.getLsbD k.val = true → (t.getV x).toNat = k.val))

/-- FX07, FX15, FX18: V[X] becomes DT, DT becomes V[X], ST becomes V[X], before the TimerGate of the same step; nothing else
changes. -/
def Obligations.TimerMovesCopyOneByte : Prop :=
  (∀ w, wordGroup w = 0xF → w.toNat % 0x100 = 0x07 → decode w = .ldFromDt (wordX w)) ∧
  (∀ w, wordGroup w = 0xF → w.toNat % 0x100 = 0x15 → decode w = .ldDt (wordX w)) ∧
  (∀ w, wordGroup w = 0xF → w.toNat % 0x100 = 0x18 → decode w = .ldSt (wordX w)) ∧
  ∀ (x : Reg) (s : State),
    (∃ t, exec (.ldFromDt x) s = .next t ∧ t.getV x = s.dt ∧ s.OnlyRegs t (fun r => r = x)) ∧
    (∃ t, exec (.ldDt x) s = .next t ∧ t.dt = s.getV x ∧ t = { s with dt := t.dt } ∧ s.SameMemory t) ∧
    (∃ t, exec (.ldSt x) s = .next t ∧ t.st = s.getV x ∧ t = { s with st := t.st } ∧ s.SameMemory t)

/-- A timer set in a step is counted by that same step's gate: a step over FX15 with V[X] not 0 ends with DT one below V[X] if
the accumulated time exceeds the threshold, and with V[X] otherwise. Rests on the spec's decision D14. -/
def Obligations.SetTimerCountsInSameStep : Prop :=
  ∀ (x : Reg) (s : State), s.fault = none → s.pc.toNat ≤ 0x0FFE → decode s.wordAtPc = .ldDt x →
    ∃ t, step s = .next t ∧
      t.dt.toNat = (if s.params.timerThreshold < s.acc + (nextInput s).elapsed then (s.getV x).toNat - 1
        else (s.getV x).toNat)
end

