-- ==== Sys2Proof/Laws/State.lean ====
section
/-! SUPPORT. What each primitive update of State leaves in each field and in the views getV, readByte and pixel: true by
unfolding, so that no later proof unfolds a record update. -/

namespace Sys2Proof.Machine

variable (s : State)

/-! #### setMem -/

@[simp] theorem State.setMem_mem (m : List Host.Cell) : (s.setMem m).mem = m := rfl
@[simp] theorem State.setMem_v (m : List Host.Cell) : (s.setMem m).v = s.v := rfl
@[simp] theorem State.setMem_pc (m : List Host.Cell) : (s.setMem m).pc = s.pc := rfl
@[simp] theorem State.setMem_i (m : List Host.Cell) : (s.setMem m).i = s.i := rfl
@[simp] theorem State.setMem_stack (m : List Host.Cell) : (s.setMem m).stack = s.stack := rfl
@[simp] theorem State.setMem_dt (m : List Host.Cell) : (s.setMem m).dt = s.dt := rfl
@[simp] theorem State.setMem_st (m : List Host.Cell) : (s.setMem m).st = s.st := rfl
@[simp] theorem State.setMem_fb (m : List Host.Cell) : (s.setMem m).fb = s.fb := rfl
@[simp] theorem State.setMem_acc (m : List Host.Cell) : (s.setMem m).acc = s.acc := rfl
@[simp] theorem State.setMem_fault (m : List Host.Cell) : (s.setMem m).fault = s.fault := rfl
@[simp] theorem State.setMem_redraw (m : List Host.Cell) : (s.setMem m).redraw = s.redraw := rfl
@[simp] theorem State.setMem_now (m : List Host.Cell) : (s.setMem m).now = s.now := rfl
@[simp] theorem State.setMem_inputs (m : List Host.Cell) : (s.setMem m).inputs = s.inputs := rfl
@[simp] theorem State.setMem_tick (m : List Host.Cell) : (s.setMem m).tick = s.tick := rfl
@[simp] theorem State.setMem_params (m : List Host.Cell) : (s.setMem m).params = s.params := rfl
@[simp] theorem State.setMem_getV (m : List Host.Cell) (q : Reg) : (s.setMem m).getV q = s.getV q := rfl
@[simp] theorem State.setMem_pixel (m : List Host.Cell) (x y : Nat) : (s.setMem m).pixel x y = s.pixel x y := rfl

/-! #### setV -/

@[simp] theorem State.setV_mem (r : Reg) (b : Byte) : (s.setV r b).mem = s.mem := rfl
@[simp] theorem State.setV_v (r : Reg) (b : Byte) : (s.setV r b).v = s.v.set r.val b r.isLt := rfl
@[simp] theorem State.setV_pc (r : Reg) (b : Byte) : (s.setV r b).pc = s.pc := rfl
@[simp] theorem State.setV_i (r : Reg) (b : Byte) : (s.setV r b).i = s.i := rfl
@[simp] theorem State.setV_stack (r : Reg) (b : Byte) : (s.setV r b).stack = s.stack := rfl
@[simp] theorem State.setV_dt (r : Reg) (b : Byte) : (s.setV r b).dt = s.dt := rfl
@[simp] theorem State.setV_st (r : Reg) (b : Byte) : (s.setV r b).st = s.st := rfl
@[simp] theorem State.setV_fb (r : Reg) (b : Byte) : (s.setV r b).fb = s.fb := rfl
@[simp] theorem State.setV_acc (r : Reg) (b : Byte) : (s.setV r b).acc = s.acc := rfl
@[simp] theorem State.setV_fault (r : Reg) (b : Byte) : (s.setV r b).fault = s.fault := rfl
@[simp] theorem State.setV_redraw (r : Reg) (b : Byte) : (s.setV r b).redraw = s.redraw := rfl
@[simp] theorem State.setV_now (r : Reg) (b : Byte) : (s.setV r b).now = s.now := rfl
@[simp] theorem State.setV_inputs (r : Reg) (b : Byte) : (s.setV r b).inputs = s.inputs := rfl
@[simp] theorem State.setV_tick (r : Reg) (b : Byte) : (s.setV r b).tick = s.tick := rfl
@[simp] theorem State.setV_params (r : Reg) (b : Byte) : (s.setV r b).params = s.params := rfl
@[simp] theorem State.setV_readByte (r : Reg) (b : Byte) (a : Nat) : (s.setV r b).readByte a = s.readByte a := rfl
@[simp] theorem State.setV_pixel (r : Reg) (b : Byte) (x y : Nat) : (s.setV r b).pixel x y = s.pixel x y := rfl

/-! #### setFlag -/

@[simp] theorem State.setFlag_mem (c : Bool) : (s.setFlag c).mem = s.mem := rfl
@[simp] theorem State.setFlag_v (c : Bool) : (s.setFlag c).v = s.v.set VF.val (if c then 1 else 0) VF.isLt := rfl
@[simp] theorem State.setFlag_pc (c : Bool) : (s.setFlag c).pc = s.pc := rfl
@[simp] theorem State.setFlag_i (c : Bool) : (s.setFlag c).i = s.i := rfl
@[simp] theorem State.setFlag_stack (c : Bool) : (s.setFlag c).stack = s.stack := rfl
@[simp] theorem State.setFlag_dt (c : Bool) : (s.setFlag c).dt = s.dt := rfl
@[simp] theorem State.setFlag_st (c : Bool) : (s.setFlag c).st = s.st := rfl
@[simp] theorem State.setFlag_fb (c : Bool) : (s.setFlag c).fb = s.fb := rfl
@[simp] theorem State.setFlag_acc (c : Bool) : (s.setFlag c).acc = s.acc := rfl
@[simp] theorem State.setFlag_fault (c : Bool) : (s.setFlag c).fault = s.fault := rfl
@[simp] theorem State.setFlag_redraw (c : Bool) : (s.setFlag c).redraw = s.redraw := rfl
@[simp] theorem State.setFlag_now (c : Bool) : (s.setFlag c).now = s.now := rfl
@[simp] theorem State.setFlag_inputs (c : Bool) : (s.setFlag c).inputs = s.inputs := rfl
@[simp] theorem State.setFlag_tick (c : Bool) : (s.setFlag c).tick = s.tick := rfl
@[simp] theorem State.setFlag_params (c : Bool) : (s.setFlag c).params = s.params := rfl
@[simp] theorem State.setFlag_readByte (c : Bool) (a : Nat) : (s.setFlag c).readByte a = s.readByte a := rfl
@[simp] theorem State.setFlag_pixel (c : Bool) (x y : Nat) : (s.setFlag c).pixel x y = s.pixel x y := rfl

/-! #### setPc -/

@[simp] theorem State.setPc_mem (w : Word) : (s.setPc w).mem = s.mem := rfl
@[simp] theorem State.setPc_v (w : Word) : (s.setPc w).v = s.v := rfl
@[simp] theorem State.setPc_pc (w : Word) : (s.setPc w).pc = w := rfl
@[simp] theorem State.setPc_i (w : Word) : (s.setPc w).i = s.i := rfl
@[simp] theorem State.setPc_stack (w : Word) : (s.setPc w).stack = s.stack := rfl
@[simp] theorem State.setPc_dt (w : Word) : (s.setPc w).dt = s.dt := rfl
@[simp] theorem State.setPc_st (w : Word) : (s.setPc w).st = s.st := rfl
@[simp] theorem State.setPc_fb (w : Word) : (s.setPc w).fb = s.fb := rfl
@[simp] theorem State.setPc_acc (w : Word) : (s.setPc w).acc = s.acc := rfl
@[simp] theorem State.setPc_fault (w : Word) : (s.setPc w).fault = s.fault := rfl
@[simp] theorem State.setPc_redraw (w : Word) : (s.setPc w).redraw = s.redraw := rfl
@[simp] theorem State.setPc_now (w : Word) : (s.setPc w).now = s.now := rfl
@[simp] theorem State.setPc_inputs (w : Word) : (s.setPc w).inputs = s.inputs := rfl
@[simp] theorem State.setPc_tick (w : Word) : (s.setPc w).tick = s.tick := rfl
@[simp] theorem State.setPc_params (w : Word) : (s.setPc w).params = s.params := rfl
@[simp] theorem State.setPc_getV (w : Word) (q : Reg) : (s.setPc w).getV q = s.getV q := rfl
@[simp] theorem State.setPc_readByte (w : Word) (a : Nat) : (s.setPc w).readByte a = s.readByte a := rfl
@[simp] theorem State.setPc_pixel (w : Word) (x y : Nat) : (s.setPc w).pixel x y = s.pixel x y := rfl

/-! #### advance -/

@[simp] theorem State.advance_mem : (s.advance).mem = s.mem := rfl
@[simp] theorem State.advance_v : (s.advance).v = s.v := rfl
@[simp] theorem State.advance_pc : (s.advance).pc = s.pc + 2 := rfl
@[simp] theorem State.advance_i : (s.advance).i = s.i := rfl
@[simp] theorem State.advance_stack : (s.advance).stack = s.stack := rfl
@[simp] theorem State.advance_dt : (s.advance).dt = s.dt := rfl
@[simp] theorem State.advance_st : (s.advance).st = s.st := rfl
@[simp] theorem State.advance_fb : (s.advance).fb = s.fb := rfl
@[simp] theorem State.advance_acc : (s.advance).acc = s.acc := rfl
@[simp] theorem State.advance_fault : (s.advance).fault = s.fault := rfl
@[simp] theorem State.advance_redraw : (s.advance).redraw = s.redraw := rfl
@[simp] theorem State.advance_now : (s.advance).now = s.now := rfl
@[simp] theorem State.advance_inputs : (s.advance).inputs = s.inputs := rfl
@[simp] theorem State.advance_tick : (s.advance).tick = s.tick := rfl
@[simp] theorem State.advance_params : (s.advance).params = s.params := rfl
@[simp] theorem State.advance_getV (q : Reg) : (s.advance).getV q = s.getV q := rfl
@[simp] theorem State.advance_readByte (a : Nat) : (s.advance).readByte a = s.readByte a := rfl
@[simp] theorem State.advance_pixel (x y : Nat) : (s.advance).pixel x y = s.pixel x y := rfl

/-! #### setI -/

@[simp] theorem State.setI_mem (w : Word) : (s.setI w).mem = s.mem := rfl
@[simp] theorem State.setI_v (w : Word) : (s.setI w).v = s.v := rfl
@[simp] theorem State.setI_pc (w : Word) : (s.setI w).pc = s.pc := rfl
@[simp] theorem State.setI_i (w : Word) : (s.setI w).i = w := rfl
@[simp] theorem State.setI_stack (w : Word) : (s.setI w).stack = s.stack := rfl
@[simp] theorem State.setI_dt (w : Word) : (s.setI w).dt = s.dt := rfl
@[simp] theorem State.setI_st (w : Word) : (s.setI w).st = s.st := rfl
@[simp] theorem State.setI_fb (w : Word) : (s.setI w).fb = s.fb := rfl
@[simp] theorem State.setI_acc (w : Word) : (s.setI w).acc = s.acc := rfl
@[simp] theorem State.setI_fault (w : Word) : (s.setI w).fault = s.fault := rfl
@[simp] theorem State.setI_redraw (w : Word) : (s.setI w).redraw = s.redraw := rfl
@[simp] theorem State.setI_now (w : Word) : (s.setI w).now = s.now := rfl
@[simp] theorem State.setI_inputs (w : Word) : (s.setI w).inputs = s.inputs := rfl
@[simp] theorem State.setI_tick (w : Word) : (s.setI w).tick = s.tick := rfl
@[simp] theorem State.setI_params (w : Word) : (s.setI w).params = s.params := rfl
@[simp] theorem State.setI_getV (w : Word) (q : Reg) : (s.setI w).getV q = s.getV q := rfl
@[simp] theorem State.setI_readByte (w : Word) (a : Nat) : (s.setI w).readByte a = s.readByte a := rfl
@[simp] theorem State.setI_pixel (w : Word) (x y : Nat) : (s.setI w).pixel x y = s.pixel x y := rfl

/-! #### setStack -/

@[simp] theorem State.setStack_mem (l : List Word) : (s.setStack l).mem = s.mem := rfl
@[simp] theorem State.setStack_v (l : List Word) : (s.setStack l).v = s.v := rfl
@[simp] theorem State.setStack_pc (l : List Word) : (s.setStack l).pc = s.pc := rfl
@[simp] theorem State.setStack_i (l : List Word) : (s.setStack l).i = s.i := rfl
@[simp] theorem State.setStack_stack (l : List Word) : (s.setStack l).stack = l := rfl
@[simp] theorem State.setStack_dt (l : List Word) : (s.setStack l).dt = s.dt := rfl
@[simp] theorem State.setStack_st (l : List Word) : (s.setStack l).st = s.st := rfl
@[simp] theorem State.setStack_fb (l : List Word) : (s.setStack l).fb = s.fb := rfl
@[simp] theorem State.setStack_acc (l : List Word) : (s.setStack l).acc = s.acc := rfl
@[simp] theorem State.setStack_fault (l : List Word) : (s.setStack l).fault = s.fault := rfl
@[simp] theorem State.setStack_redraw (l : List Word) : (s.setStack l).redraw = s.redraw := rfl
@[simp] theorem State.setStack_now (l : List Word) : (s.setStack l).now = s.now := rfl
@[simp] theorem State.setStack_inputs (l : List Word) : (s.setStack l).inputs = s.inputs := rfl
@[simp] theorem State.setStack_tick (l : List Word) : (s.setStack l).tick = s.tick := rfl
@[simp] theorem State.setStack_params (l : List Word) : (s.setStack l).params = s.params := rfl
@[simp] theorem State.setStack_getV (l : List Word) (q : Reg) : (s.setStack l).getV q = s.getV q := rfl
@[simp] theorem State.setStack_readByte (l : List Word) (a : Nat) : (s.setStack l).readByte a = s.readByte a := rfl
@[simp] theorem State.setStack_pixel (l : List Word) (x y : Nat) : (s.setStack l).pixel x y = s.pixel x y := rfl

/-! #### setDt -/

@[simp] theorem State.setDt_mem (b : Byte) : (s.setDt b).mem = s.mem := rfl
@[simp] theorem State.setDt_v (b : Byte) : (s.setDt b).v = s.v := rfl
@[simp] theorem State.setDt_pc (b : Byte) : (s.setDt b).pc = s.pc := rfl
@[simp] theorem State.setDt_i (b : Byte) : (s.setDt b).i = s.i := rfl
@[simp] theorem State.setDt_stack (b : Byte) : (s.setDt b).stack = s.stack := rfl
@[simp] theorem State.setDt_dt (b : Byte) : (s.setDt b).dt = b := rfl
@[simp] theorem State.setDt_st (b : Byte) : (s.setDt b).st = s.st := rfl
@[simp] theorem State.setDt_fb (b : Byte) : (s.setDt b).fb = s.fb := rfl
@[simp] theorem State.setDt_acc (b : Byte) : (s.setDt b).acc = s.acc := rfl
@[simp] theorem State.setDt_fault (b : Byte) : (s.setDt b).fault = s.fault := rfl
@[simp] theorem State.setDt_redraw (b : Byte) : (s.setDt b).redraw = s.redraw := rfl
@[simp] theorem State.setDt_now (b : Byte) : (s.setDt b).now = s.now := rfl
@[simp] theorem State.setDt_inputs (b : Byte) : (s.setDt b).inputs = s.inputs := rfl
@[simp] theorem State.setDt_tick (b : Byte) : (s.setDt b).tick = s.tick := rfl
@[simp] theorem State.setDt_params (b : Byte) : (s.setDt b).params = s.params := rfl
@[simp] theorem State.setDt_getV (b : Byte) (q : Reg) : (s.setDt b).getV q = s.getV q := rfl
@[simp] theorem State.setDt_readByte (b : Byte) (a : Nat) : (s.setDt b).readByte a = s.readByte a := rfl
@[simp] theorem State.setDt_pixel (b : Byte) (x y : Nat) : (s.setDt b).pixel x y = s.pixel x y := rfl

/-! #### setSt -/

@[simp] theorem State.setSt_mem (b : Byte) : (s.setSt b).mem = s.mem := rfl
@[simp] theorem State.setSt_v (b : Byte) : (s.setSt b).v = s.v := rfl
@[simp] theorem State.setSt_pc (b : Byte) : (s.setSt b).pc = s.pc := rfl
@[simp] theorem State.setSt_i (b : Byte) : (s.setSt b).i = s.i := rfl
@[simp] theorem State.setSt_stack (b : Byte) : (s.setSt b).stack = s.stack := rfl
@[simp] theorem State.setSt_dt (b : Byte) : (s.setSt b).dt = s.dt := rfl
@[simp] theorem State.setSt_st (b : Byte) : (s.setSt b).st = b := rfl
@[simp] theorem State.setSt_fb (b : Byte) : (s.setSt b).fb = s.fb := rfl
@[simp] theorem State.setSt_acc (b : Byte) : (s.setSt b).acc = s.acc := rfl
@[simp] theorem State.setSt_fault (b : Byte) : (s.setSt b).fault = s.fault := rfl
@[simp] theorem State.setSt_redraw (b : Byte) : (s.setSt b).redraw = s.redraw := rfl
@[simp] theorem State.setSt_now (b : Byte) : (s.setSt b).now = s.now := rfl
@[simp] theorem State.setSt_inputs (b : Byte) : (s.setSt b).inputs = s.inputs := rfl
@[simp] theorem State.setSt_tick (b : Byte) : (s.setSt b).tick = s.tick := rfl
@[simp] theorem State.setSt_params (b : Byte) : (s.setSt b).params = s.params := rfl
@[simp] theorem State.setSt_getV (b : Byte) (q : Reg) : (s.setSt b).getV q = s.getV q := rfl
@[simp] theorem State.setSt_readByte (b : Byte) (a : Nat) : (s.setSt b).readByte a = s.readByte a := rfl
@[simp] theorem State.setSt_pixel (b : Byte) (x y : Nat) : (s.setSt b).pixel x y = s.pixel x y := rfl

/-! #### setFb -/

@[simp] theorem State.setFb_mem (f : Vector (Vector Bool 64) 32) : (s.setFb f).mem = s.mem := rfl
@[simp] theorem State.setFb_v (f : Vector (Vector Bool 64) 32) : (s.setFb f).v = s.v := rfl
@[simp] theorem State.setFb_pc (f : Vector (Vector Bool 64) 32) : (s.setFb f).pc = s.pc := rfl
@[simp] theorem State.setFb_i (f : Vector (Vector Bool 64) 32) : (s.setFb f).i = s.i := rfl
@[simp] theorem State.setFb_stack (f : Vector (Vector Bool 64) 32) : (s.setFb f).stack = s.stack := rfl
@[simp] theorem State.setFb_dt (f : Vector (Vector Bool 64) 32) : (s.setFb f).dt = s.dt := rfl
@[simp] theorem State.setFb_st (f : Vector (Vector Bool 64) 32) : (s.setFb f).st = s.st := rfl
@[simp] theorem State.setFb_fb (f : Vector (Vector Bool 64) 32) : (s.setFb f).fb = f := rfl
@[simp] theorem State.setFb_acc (f : Vector (Vector Bool 64) 32) : (s.setFb f).acc = s.acc := rfl
@[simp] theorem State.setFb_fault (f : Vector (Vector Bool 64) 32) : (s.setFb f).fault = s.fault := rfl
@[simp] theorem State.setFb_redraw (f : Vector (Vector Bool 64) 32) : (s.setFb f).redraw = s.redraw := rfl
@[simp] theorem State.setFb_now (f : Vector (Vector Bool 64) 32) : (s.setFb f).now = s.now := rfl
@[simp] theorem State.setFb_inputs (f : Vector (Vector Bool 64) 32) : (s.setFb f).inputs = s.inputs := rfl
@[simp] theorem State.setFb_tick (f : Vector (Vector Bool 64) 32) : (s.setFb f).tick = s.tick := rfl
@[simp] theorem State.setFb_params (f : Vector (Vector Bool 64) 32) : (s.setFb f).params = s.params := rfl
@[simp] theorem State.setFb_getV (f : Vector (Vector Bool 64) 32) (q : Reg) : (s.setFb f).getV q = s.getV q := rfl
@[simp] theorem State.setFb_readByte (f : Vector (Vector Bool 64) 32) (a : Nat) : (s.setFb f).readByte a = s.readByte a := rfl

/-! #### setRedraw -/

@[simp] theorem State.setRedraw_mem (c : Bool) : (s.setRedraw c).mem = s.mem := rfl
@[simp] theorem State.setRedraw_v (c : Bool) : (s.setRedraw c).v = s.v := rfl
@[simp] theorem State.setRedraw_pc (c : Bool) : (s.setRedraw c).pc = s.pc := rfl
@[simp] theorem State.setRedraw_i (c : Bool) : (s.setRedraw c).i = s.i := rfl
@[simp] theorem State.setRedraw_stack (c : Bool) : (s.setRedraw c).stack = s.stack := rfl
@[simp] theorem State.setRedraw_dt (c : Bool) : (s.setRedraw c).dt = s.dt := rfl
@[simp] theorem State.setRedraw_st (c : Bool) : (s.setRedraw c).st = s.st := rfl
@[simp] theorem State.setRedraw_fb (c : Bool) : (s.setRedraw c).fb = s.fb := rfl
@[simp] theorem State.setRedraw_acc (c : Bool) : (s.setRedraw c).acc = s.acc := rfl
@[simp] theorem State.setRedraw_fault (c : Bool) : (s.setRedraw c).fault = s.fault := rfl
@[simp] theorem State.setRedraw_redraw (c : Bool) : (s.setRedraw c).redraw = c := rfl
@[simp] theorem State.setRedraw_now (c : Bool) : (s.setRedraw c).now = s.now := rfl
@[simp] theorem State.setRedraw_inputs (c : Bool) : (s.setRedraw c).inputs = s.inputs := rfl
@[simp] theorem State.setRedraw_tick (c : Bool) : (s.setRedraw c).tick = s.tick := rfl
@[simp] theorem State.setRedraw_params (c : Bool) : (s.setRedraw c).params = s.params := rfl
@[simp] theorem State.setRedraw_getV (c : Bool) (q : Reg) : (s.setRedraw c).getV q = s.getV q := rfl
@[simp] theorem State.setRedraw_readByte (c : Bool) (a : Nat) : (s.setRedraw c).readByte a = s.readByte a := rfl
@[simp] theorem State.setRedraw_pixel (c : Bool) (x y : Nat) : (s.setRedraw c).pixel x y = s.pixel x y := rfl

/-! #### clearFault -/

@[simp] theorem State.clearFault_mem : (s.clearFault).mem = s.mem := rfl
@[simp] theorem State.clearFault_v : (s.clearFault).v = s.v := rfl
@[simp] theorem State.clearFault_pc : (s.clearFault).pc = s.pc := rfl
@[simp] theorem State.clearFault_i : (s.clearFault).i = s.i := rfl
@[simp] theorem State.clearFault_stack : (s.clearFault).stack = s.stack := rfl
@[simp] theorem State.clearFault_dt : (s.clearFault).dt = s.dt := rfl
@[simp] theorem State.clearFault_st : (s.clearFault).st = s.st := rfl
@[simp] theorem State.clearFault_fb : (s.clearFault).fb = s.fb := rfl
@[simp] theorem State.clearFault_acc : (s.clearFault).acc = s.acc := rfl
@[simp] theorem State.clearFault_fault : (s.clearFault).fault = none := rfl
@[simp] theorem State.clearFault_redraw : (s.clearFault).redraw = s.redraw := rfl
@[simp] theorem State.clearFault_now : (s.clearFault).now = s.now := rfl
@[simp] theorem State.clearFault_inputs : (s.clearFault).inputs = s.inputs := rfl
@[simp] theorem State.clearFault_tick : (s.clearFault).tick = s.tick := rfl
@[simp] theorem State.clearFault_params : (s.clearFault).params = s.params := rfl
@[simp] theorem State.clearFault_getV (q : Reg) : (s.clearFault).getV q = s.getV q := rfl
@[simp] theorem State.clearFault_readByte (a : Nat) : (s.clearFault).readByte a = s.readByte a := rfl
@[simp] theorem State.clearFault_pixel (x y : Nat) : (s.clearFault).pixel x y = s.pixel x y := rfl

/-! #### raise -/

@[simp] theorem raise_mem (f : FaultRecord) : (raise f s).mem = s.mem := rfl
@[simp] theorem raise_v (f : FaultRecord) : (raise f s).v = s.v := rfl
@[simp] theorem raise_pc (f : FaultRecord) : (raise f s).pc = s.pc := rfl
@[simp] theorem raise_i (f : FaultRecord) : (raise f s).i = s.i := rfl
@[simp] theorem raise_stack (f : FaultRecord) : (raise f s).stack = s.stack := rfl
@[simp] theorem raise_dt (f : FaultRecord) : (raise f s).dt = s.dt := rfl
@[simp] theorem raise_st (f : FaultRecord) : (raise f s).st = s.st := rfl
@[simp] theorem raise_fb (f : FaultRecord) : (raise f s).fb = s.fb := rfl
@[simp] theorem raise_acc (f : FaultRecord) : (raise f s).acc = s.acc := rfl
@[simp] theorem raise_fault (f : FaultRecord) : (raise f s).fault = some f := rfl
@[simp] theorem raise_redraw (f : FaultRecord) : (raise f s).redraw = false := rfl
@[simp] theorem raise_now (f : FaultRecord) : (raise f s).now = s.now := rfl
@[simp] theorem raise_inputs (f : FaultRecord) : (raise f s).inputs = s.inputs := rfl
@[simp] theorem raise_tick (f : FaultRecord) : (raise f s).tick = s.tick := rfl
@[simp] theorem raise_params (f : FaultRecord) : (raise f s).params = s.params := rfl
@[simp] theorem raise_getV (f : FaultRecord) (q : Reg) : (raise f s).getV q = s.getV q := rfl
@[simp] theorem raise_readByte (f : FaultRecord) (a : Nat) : (raise f s).readByte a = s.readByte a := rfl
@[simp] theorem raise_pixel (f : FaultRecord) (x y : Nat) : (raise f s).pixel x y = s.pixel x y := rfl

/-! #### sample -/

@[simp] theorem sample_mem : (sample s).mem = s.mem := rfl
@[simp] theorem sample_v : (sample s).v = s.v := rfl
@[simp] theorem sample_pc : (sample s).pc = s.pc := rfl
@[simp] theorem sample_i : (sample s).i = s.i := rfl
@[simp] theorem sample_stack : (sample s).stack = s.stack := rfl
@[simp] theorem sample_dt : (sample s).dt = s.dt := rfl
@[simp] theorem sample_st : (sample s).st = s.st := rfl
@[simp] theorem sample_fb : (sample s).fb = s.fb := rfl
@[simp] theorem sample_acc : (sample s).acc = s.acc := rfl
@[simp] theorem sample_fault : (sample s).fault = s.fault := rfl
@[simp] theorem sample_redraw : (sample s).redraw = s.redraw := rfl
@[simp] theorem sample_now : (sample s).now = nextInput s := rfl
@[simp] theorem sample_inputs : (sample s).inputs = s.inputs.tail := rfl
@[simp] theorem sample_tick : (sample s).tick = s.tick + 1 := rfl
@[simp] theorem sample_params : (sample s).params = s.params := rfl
@[simp] theorem sample_getV (q : Reg) : (sample s).getV q = s.getV q := rfl
@[simp] theorem sample_readByte (a : Nat) : (sample s).readByte a = s.readByte a := rfl
@[simp] theorem sample_pixel (x y : Nat) : (sample s).pixel x y = s.pixel x y := rfl

/-! #### timerGate -/

@[simp] theorem timerGate_mem : (timerGate s).mem = s.mem := rfl
@[simp] theorem timerGate_v : (timerGate s).v = s.v := rfl
@[simp] theorem timerGate_pc : (timerGate s).pc = s.pc := rfl
@[simp] theorem timerGate_i : (timerGate s).i = s.i := rfl
@[simp] theorem timerGate_stack : (timerGate s).stack = s.stack := rfl
@[simp] theorem timerGate_dt : (timerGate s).dt = countDown (gateFires s) s.dt := rfl
@[simp] theorem timerGate_st : (timerGate s).st = countDown (gateFires s) s.st := rfl
@[simp] theorem timerGate_fb : (timerGate s).fb = s.fb := rfl
@[simp] theorem timerGate_acc : (timerGate s).acc = if gateFires s then 0 else s.acc + s.now.elapsed := rfl
@[simp] theorem timerGate_fault : (timerGate s).fault = s.fault := rfl
@[simp] theorem timerGate_redraw : (timerGate s).redraw = s.redraw := rfl
@[simp] theorem timerGate_now : (timerGate s).now = s.now := rfl
@[simp] theorem timerGate_inputs : (timerGate s).inputs = s.inputs := rfl
@[simp] theorem timerGate_tick : (timerGate s).tick = s.tick := rfl
@[simp] theorem timerGate_params : (timerGate s).params = s.params := rfl
@[simp] theorem timerGate_getV (q : Reg) : (timerGate s).getV q = s.getV q := rfl
@[simp] theorem timerGate_readByte (a : Nat) : (timerGate s).readByte a = s.readByte a := rfl
@[simp] theorem timerGate_pixel (x y : Nat) : (timerGate s).pixel x y = s.pixel x y := rfl

end Sys2Proof.Machine
end

