-- ==== Sys2Proof/Laws/Memory.lean ====
section
/-! SUPPORT. The laws of memory: a byte written reads back, other bytes are left alone, and every memory operation keeps
the canonical form. -/

namespace Sys2Proof.Machine

theorem Memory.wfFrom_cons {lo a : Nat} {u : Byte} {rest : List Host.Cell} :
    Memory.wfFrom lo ((a, u) :: rest) = true ↔
      lo ≤ a ∧ a < Config.memSize ∧ u ≠ resetByte a ∧ Memory.wfFrom (a + 1) rest = true := by
  simp [Memory.wfFrom, and_assoc]

theorem Memory.wfFrom_mono {m : List Host.Cell} {lo lo' : Nat} (h : lo ≤ lo')
    (hm : Memory.wfFrom lo' m = true) : Memory.wfFrom lo m = true := by
  cases m with
  | nil => rfl
  | cons c rest =>
    obtain ⟨b, u⟩ := c
    rw [Memory.wfFrom_cons] at hm ⊢
    exact ⟨by omega, hm.2⟩

/-- Below its first address a canonical memory reads as after reset. -/
theorem Memory.read_below {m : List Host.Cell} {lo a : Nat} (hm : Memory.wfFrom lo m = true) (ha : a < lo) :
    Memory.read m a = resetByte a := by
  induction m generalizing lo with
  | nil => rfl
  | cons c rest ih =>
    obtain ⟨b, u⟩ := c
    rw [Memory.wfFrom_cons] at hm
    have hne : a ≠ b := by omega
    simp only [Memory.read, hne, if_false]
    exact ih hm.2.2.2 (by omega)

/-- A byte written reads back, and every other byte reads as before. -/
theorem Memory.read_writeFrom {m : List Host.Cell} {lo : Nat} (hm : Memory.wfFrom lo m = true) (a b : Nat) (v : Byte) :
    Memory.read (Memory.write m a v) b = if b = a then v else Memory.read m b := by
  induction m generalizing lo with
  | nil => by_cases hv : v = resetByte a <;> by_cases hb : b = a <;> simp [Memory.write, Memory.read, hv, hb]
  | cons c rest ih =>
    obtain ⟨k, u⟩ := c
    have hc := Memory.wfFrom_cons.mp hm
    have ih' := ih hc.2.2.2
    by_cases hb : b = a
    · subst hb
      simp only [if_pos]
      simp only [Memory.write]
      by_cases h1 : b < k
      · have : b ≠ k := by omega
        by_cases hv : v = resetByte b
        · simp [h1, hv, Memory.read, this, Memory.read_below hc.2.2.2 (show b < k + 1 by omega)]
        · simp [h1, hv, Memory.read]
      · by_cases h2 : b = k
        · subst h2
          by_cases hv : v = resetByte b
          · simp [hv, Memory.read_below hc.2.2.2 (show b < b + 1 by omega)]
          · simp [hv, Memory.read]
        · simp [h1, h2, Memory.read, ih']
    · simp only [Memory.write, hb, if_false]
      by_cases h1 : a < k
      · by_cases hv : v = resetByte a <;> simp [h1, hv, Memory.read, hb]
      · by_cases h2 : a = k
        · subst h2
          by_cases hv : v = resetByte a <;> simp [hv, Memory.read, hb]
        · simp [h1, h2, Memory.read, ih', hb]

/-- The law of memory, over canonical memories. -/
theorem Memory.read_write {m : List Host.Cell} (hm : Memory.wf m = true) (a b : Nat) (v : Byte) :
    Memory.read (Memory.write m a v) b = if b = a then v else Memory.read m b :=
  Memory.read_writeFrom hm a b v

/-- Over any list, canonical or not, a write leaves every other address alone. -/
theorem Memory.read_write_other (m : List Host.Cell) {a b : Nat} (hb : b ≠ a) (v : Byte) :
    Memory.read (Memory.write m a v) b = Memory.read m b := by
  induction m with
  | nil => by_cases hv : v = resetByte a <;> simp [Memory.write, Memory.read, hv, hb]
  | cons c rest ih =>
    obtain ⟨k, u⟩ := c
    simp only [Memory.write]
    by_cases h1 : a < k
    · by_cases hv : v = resetByte a <;> simp [h1, hv, Memory.read, hb]
    · by_cases h2 : a = k
      · subst h2
        by_cases hv : v = resetByte a <;> simp [hv, Memory.read, hb]
      · simp [h1, h2, Memory.read, ih]

theorem Memory.wfFrom_write {m : List Host.Cell} {lo a : Nat} (hm : Memory.wfFrom lo m = true) (hlo : lo ≤ a)
    (ha : a < Config.memSize) (v : Byte) : Memory.wfFrom lo (Memory.write m a v) = true := by
  induction m generalizing lo with
  | nil => by_cases hv : v = resetByte a <;> simp [Memory.write, hv, Memory.wfFrom, hlo, ha]
  | cons c rest ih =>
    obtain ⟨k, u⟩ := c
    have hc := Memory.wfFrom_cons.mp hm
    simp only [Memory.write]
    by_cases h1 : a < k
    · by_cases hv : v = resetByte a
      · simpa [h1, hv] using hm
      · simp only [h1, hv, if_true, if_false]
        exact Memory.wfFrom_cons.mpr ⟨hlo, ha, hv, Memory.wfFrom_cons.mpr ⟨by omega, hc.2⟩⟩
    · by_cases h2 : a = k
      · subst h2
        by_cases hv : v = resetByte a
        · simpa [hv] using Memory.wfFrom_mono (by omega) hc.2.2.2
        · simp only [hv, lt_irrefl, if_true, if_false]
          exact Memory.wfFrom_cons.mpr ⟨hlo, ha, hv, hc.2.2.2⟩
      · simp only [h1, h2, if_false]
        exact Memory.wfFrom_cons.mpr ⟨hc.1, hc.2.1, hc.2.2.1, ih hc.2.2.2 (by omega)⟩

/-- A write inside the address space keeps the canonical form. -/
theorem Memory.wf_write {m : List Host.Cell} (hm : Memory.wf m = true) {a : Nat} (ha : a < Config.memSize) (v : Byte) :
    Memory.wf (Memory.write m a v) = true :=
  Memory.wfFrom_write hm (Nat.zero_le a) ha v

/-- Memory after reset is canonical: it lists nothing. -/
theorem Memory.wf_reset : Memory.wf State.reset.mem = true := rfl

/-- Writing two different addresses of a canonical memory, the later write does not disturb the earlier one. -/
theorem State.readByte_writeByte {s : State} (hm : Memory.wf s.mem = true) (a b : Nat) (v : Byte) :
    (s.writeByte a v).readByte b = if b = a then v else s.readByte b :=
  Memory.read_write hm a b v

theorem State.readByte_writeByte_other (s : State) {a b : Nat} (hb : b ≠ a) (v : Byte) :
    (s.writeByte a v).readByte b = s.readByte b :=
  Memory.read_write_other s.mem hb v

end Sys2Proof.Machine
end

