-- ==== Sys2Proof/Laws/Ops.lean ====
section
/-! SUPPORT. For each shared operation, what it can do, said once: registers, skips, the range check, fetching, register
ranges, the TimerGate and raising. -/

namespace Sys2Proof.Machine

/-! ### Registers and flags -/

/-- A register written reads back, and the others read as before. -/
theorem State.getV_setV (s : State) (r q : Reg) (b : Byte) :
    (s.setV r b).getV q = if q = r then b else s.getV q := by
  unfold State.getV State.setV
  rw [Vector.getElem_set]
  by_cases h : q = r
  · simp [h]
  · have : r.val ≠ q.val := fun e => h (Fin.ext e.symm)
    simp [this, h]

@[simp] theorem State.getV_setV_same (s : State) (r : Reg) (b : Byte) : (s.setV r b).getV r = b := by
  simp [State.getV_setV]

theorem State.getV_setV_other (s : State) {r q : Reg} (h : q ≠ r) (b : Byte) : (s.setV r b).getV q = s.getV q := by
  simp [State.getV_setV, h]

/-- A flag goes to VF and nowhere else. -/
theorem State.getV_setFlag (s : State) (c : Bool) (q : Reg) :
    (s.setFlag c).getV q = if q = VF then (if c then 1 else 0) else s.getV q :=
  State.getV_setV s VF q _

/-- Two register files with equal registers are equal. -/
theorem State.v_ext {s t : State} (h : ∀ r, t.getV r = s.getV r) : t.v = s.v := by
  apply Vector.ext
  intro k hk
  exact h ⟨k, hk⟩

/-- A skip changes pc only, by 2 or not at all. -/
theorem State.skipIf_eq (s : State) (c : Bool) : s.skipIf c = s.setPc (if c then s.pc + 2 else s.pc) := by
  cases c <;> rfl

/-! ### Range check and fetch -/

/-- The range check passes exactly when no byte or only existing bytes are touched. -/
theorem outOfRange_eq_none {base len : Nat} : outOfRange base len = none ↔ len = 0 ∨ base + len ≤ 0x1000 := by
  unfold outOfRange Config.memSize
  split <;> simp_all

/-- Otherwise it reports the lowest address that does not exist. -/
theorem outOfRange_eq_some {base len : Nat} {a : BitVec 17} :
    outOfRange base len = some a ↔ len ≠ 0 ∧ 0x1000 < base + len ∧ a = BitVec.ofNat 17 (max base 0x1000) := by
  unfold outOfRange Config.memSize
  split
  · rename_i h
    simp only [reduceCtorEq, false_iff]
    omega
  · rename_i h
    simp only [Option.some.injEq]
    constructor
    · intro e
      exact ⟨by omega, by omega, e.symm⟩
    · exact fun e => e.2.2.symm

/-- A data access does its effect, or raises the range fault and nothing else. -/
theorem withRange_eq (len : Nat) (effect : State → State) (s : State) :
    withRange len effect s =
      if len = 0 ∨ s.i.toNat + len ≤ 0x1000 then effect s
      else raise (.memoryOutOfRange (BitVec.ofNat 17 (max s.i.toNat 0x1000))) s := by
  unfold withRange outOfRange Config.memSize
  split <;> split <;> simp_all

/-- A fetch reads the big-endian word at pc, or reports the lowest address that does not exist. -/
theorem fetch_eq (s : State) :
    fetch s =
      if s.pc.toNat ≤ 0x0FFE then .ok (wordOfBytes (s.readByte s.pc.toNat) (s.readByte (s.pc.toNat + 1)))
      else .error (.memoryOutOfRange (BitVec.ofNat 17 (max s.pc.toNat 0x1000))) := by
  unfold fetch outOfRange Config.memSize
  by_cases h : s.pc.toNat ≤ 0x0FFE
  · have h' : s.pc.toNat + 2 ≤ 4096 := by omega
    simp [h, h']
  · have h' : ¬ s.pc.toNat + 2 ≤ 4096 := by omega
    simp [h, h']

/-- Sampling the inputs does not change what is fetched. -/
@[simp] theorem fetch_sample (s : State) : fetch (sample s) = fetch s := rfl

/-! ### Register ranges -/

/-- Storing a register range changes memory only. -/
theorem storeRange_frame (base count : Nat) (s : State) :
    storeRange base count s = s.setMem (storeRange base count s).mem := by
  induction count with
  | zero => rfl
  | succ k ih =>
    simp only [storeRange]
    rw [ih]
    rfl

@[simp] theorem storeRange_getV (base count : Nat) (s : State) (r : Reg) :
    (storeRange base count s).getV r = s.getV r := by
  rw [storeRange_frame]
  rfl

/-- Storing a register range keeps memory canonical. -/
theorem storeRange_wf {base count : Nat} {s : State} (hm : Memory.wf s.mem = true) (hr : base + count ≤ Config.memSize) :
    Memory.wf (storeRange base count s).mem = true := by
  induction count with
  | zero => exact hm
  | succ k ih => exact Memory.wf_write (ih (by omega)) (by omega) _

/-- After storing a register range, byte k of it is V[k] and every other byte is as before. -/
theorem storeRange_readByte {base count : Nat} {s : State} (hm : Memory.wf s.mem = true)
    (hr : base + count ≤ Config.memSize) (a : Nat) :
    (storeRange base count s).readByte a =
      if base ≤ a ∧ a < base + count then s.getV (Fin.ofNat 16 (a - base)) else s.readByte a := by
  induction count with
  | zero => simp [storeRange]
  | succ k ih =>
    have hwf := storeRange_wf (s := s) hm (show base + k ≤ Config.memSize by omega)
    simp only [storeRange, State.readByte_writeByte hwf, storeRange_getV]
    rw [ih (by omega)]
    by_cases h1 : a = base + k
    · subst h1
      simp
    · by_cases h2 : base ≤ a ∧ a < base + k
      · have h3 : base ≤ a ∧ a < base + (k + 1) := by omega
        simp only [h1, h2, h3, if_true, if_false, and_self]
      · have h3 : ¬ (base ≤ a ∧ a < base + (k + 1)) := by omega
        simp only [h1, h2, h3, if_false]

/-- Loading a register range changes the registers only. -/
theorem loadRange_frame (base count : Nat) (s : State) :
    loadRange base count s = { s with v := (loadRange base count s).v } := by
  induction count with
  | zero => rfl
  | succ k ih =>
    simp only [loadRange]
    rw [ih]
    rfl

@[simp] theorem loadRange_readByte (base count : Nat) (s : State) (a : Nat) :
    (loadRange base count s).readByte a = s.readByte a := by
  rw [loadRange_frame]
  rfl

/-- After loading a register range, V[k] is byte k of it for the registers of the range, and the others are as before. -/
theorem loadRange_getV {base count : Nat} (hc : count ≤ 16) (s : State) (r : Reg) :
    (loadRange base count s).getV r = if r.val < count then s.readByte (base + r.val) else s.getV r := by
  induction count with
  | zero => simp [loadRange]
  | succ k ih =>
    simp only [loadRange, State.getV_setV, loadRange_readByte]
    rw [ih (by omega)]
    have hk : (Fin.ofNat 16 k).val = k := Nat.mod_eq_of_lt (by omega)
    by_cases h : r = Fin.ofNat 16 k
    · have hv : r.val = k := by rw [h, hk]
      have h3 : r.val < k + 1 := by omega
      rw [if_pos h, if_pos h3, hv]
    · have hv : r.val ≠ k := fun e => h (Fin.ext (by rw [hk, e]))
      by_cases h2 : r.val < k
      · have h3 : r.val < k + 1 := by omega
        simp only [h, h2, h3, if_true, if_false]
      · have h3 : ¬ r.val < k + 1 := by omega
        simp only [h, h2, h3, if_false]

/-- The store-load-increment quirk changes I only. -/
theorem bumpIndex_eq (x : Reg) (s : State) :
    bumpIndex x s = s.setI (if s.now.quirks.storeLoadIncrement then s.i + BitVec.ofNat 16 (x.val + 1) else s.i) := by
  unfold bumpIndex
  split <;> rfl

/-- The shift-source quirk changes V[X] only. -/
theorem loadShiftSource_eq (x y : Reg) (s : State) :
    loadShiftSource x y s = s.setV x (if s.now.quirks.shiftSource then s.getV y else s.getV x) := by
  unfold loadShiftSource
  split
  · rfl
  · simp [State.setV, State.getV]

/-! ### TimerGate and the end of a step -/

/-- A timer under the gate is unchanged, or one lower from a non-zero value when the gate fires. -/
theorem countDown_eq (fires : Bool) (timer : Byte) :
    countDown fires timer = if timer ≠ 0 ∧ fires = true then timer - 1 else timer := by
  unfold countDown
  by_cases h : timer = 0
  · rw [if_pos h, if_neg (fun e => e.1 h), h]
  · have h' : timer ≠ 0#8 := h
    cases fires <;> simp [h']

/-- The end of a step is the TimerGate for a step that did not fault, and nothing for one that did. -/
theorem endStep_eq (s : State) : endStep s = if s.fault = none then timerGate s else s := by
  unfold endStep
  cases s.fault <;> rfl

/-! ### The host's reset -/

/-- Copying bytes changes memory only. -/
theorem copyBytes_frame (base : Nat) (rom : List Byte) (s : State) :
    copyBytes base rom s = s.setMem (copyBytes base rom s).mem := by
  induction rom generalizing base s with
  | nil => rfl
  | cons b rest ih =>
    simp only [copyBytes]
    rw [ih]
    rfl

/-- Copying bytes keeps memory canonical. -/
theorem copyBytes_wf {base : Nat} {rom : List Byte} {s : State} (hm : Memory.wf s.mem = true)
    (hr : base + rom.length ≤ Config.memSize) : Memory.wf (copyBytes base rom s).mem = true := by
  induction rom generalizing base s with
  | nil => exact hm
  | cons b rest ih =>
    simp only [List.length_cons] at hr
    exact ih (Memory.wf_write hm (by omega) b) (by omega)

/-- After copying, byte k of the copy is byte k of the list and every other byte is as before. -/
theorem copyBytes_readByte {base : Nat} {rom : List Byte} {s : State} (hm : Memory.wf s.mem = true)
    (hr : base + rom.length ≤ Config.memSize) (a : Nat) :
    (copyBytes base rom s).readByte a =
      if base ≤ a ∧ a < base + rom.length then rom.getD (a - base) 0 else s.readByte a := by
  induction rom generalizing base s with
  | nil => simp [copyBytes]
  | cons b rest ih =>
    simp only [List.length_cons] at hr
    have hwf : Memory.wf (s.writeByte base b).mem = true := Memory.wf_write hm (by omega) b
    simp only [copyBytes]
    rw [ih hwf (by omega), State.readByte_writeByte hm]
    by_cases h1 : a = base
    · subst h1
      simp
    · by_cases h2 : base + 1 ≤ a ∧ a < base + 1 + rest.length
      · have h3 : base ≤ a ∧ a < base + (rest.length + 1) := by omega
        have h4 : a - base = (a - (base + 1)) + 1 := by omega
        simp [h2, h3, h4]
      · have h3 : ¬ (base ≤ a ∧ a < base + (rest.length + 1)) := by omega
        simp only [List.length_cons, h1, h2, h3, if_false]

/-- A bare reset leaves every field but memory at its reset value, or, for the host's side, as it was. -/
theorem resetBare_frame (s : State) :
    resetBare s =
      { State.reset with mem := (resetBare s).mem, params := s.params, inputs := s.inputs, tick := s.tick } := by
  unfold resetBare installFont
  rw [copyBytes_frame]
  rfl

/-- A bare reset leaves a canonical memory. -/
theorem resetBare_wf (s : State) : Memory.wf (resetBare s).mem = true :=
  copyBytes_wf (s := { State.reset with params := s.params, inputs := s.inputs, tick := s.tick }) Memory.wf_reset
    (by rw [Vector.length_toList]; decide)

/-- Outside the font an unlisted byte reads 0. -/
theorem resetByte_outside {a : Nat} (h : a < 0x050 ∨ 0x0A0 ≤ a) : resetByte a = 0 := by
  unfold resetByte Config.fontBase Config.fontSize
  rw [if_neg (by omega)]

/-- After a bare reset memory is this machine's FONT_ROM in the font region and 0 elsewhere. -/
theorem resetBare_readByte (s : State) (a : Nat) :
    (resetBare s).readByte a =
      if 0x050 ≤ a ∧ a < 0x0A0 then s.params.font.toList.getD (a - 0x050) 0 else 0 := by
  have h := copyBytes_readByte (base := Config.fontBase) (rom := s.params.font.toList)
    (s := { State.reset with params := s.params, inputs := s.inputs, tick := s.tick }) Memory.wf_reset
    (by rw [Vector.length_toList]; decide) a
  rw [Vector.length_toList] at h
  refine h.trans ?_
  by_cases ha : 0x050 ≤ a ∧ a < 0x0A0
  · rw [if_pos ha]
    exact if_pos ha
  · rw [if_neg ha]
    exact (if_neg ha).trans (resetByte_outside (by omega))

end Sys2Proof.Machine
end

