-- ==== Sys2Proof/Laws/Decode.lean ====
section
/-! SUPPORT. The fields of a packed word are what was packed, and a word put together from its bytes is that word. -/

namespace Sys2Proof

@[simp] theorem regOfNibble_nibbleOfReg (r : Reg) : regOfNibble (nibbleOfReg r) = r := rfl

@[simp] theorem nibbleOfReg_regOfNibble (b : Nibble) : nibbleOfReg (regOfNibble b) = b := rfl

/-- The high part of an appended bit vector. -/
theorem extractHigh_append {m n : Nat} (a : BitVec m) (b : BitVec n) : (a ++ b).extractLsb' n m = a := by
  apply BitVec.eq_of_getLsbD_eq
  intro k hk
  simp [BitVec.getLsbD_append, hk]

/-- A field inside the low part of an appended bit vector. -/
theorem extractLow_append {m n : Nat} (a : BitVec m) (b : BitVec n) {lo len : Nat} (h : lo + len ≤ n) :
    (a ++ b).extractLsb' lo len = b.extractLsb' lo len := by
  apply BitVec.eq_of_getLsbD_eq
  intro k hk
  have : lo + k < n := by omega
  simp [BitVec.getLsbD_append, hk, this]

/-- A field inside the high part of an appended bit vector. -/
theorem extractMid_append {m n : Nat} (a : BitVec m) (b : BitVec n) {lo len : Nat} (h : n ≤ lo) :
    (a ++ b).extractLsb' lo len = a.extractLsb' (lo - n) len := by
  apply BitVec.eq_of_getLsbD_eq
  intro k hk
  have h1 : ¬ lo + k < n := by omega
  have h2 : lo + k - n = lo - n + k := by omega
  simp [BitVec.getLsbD_append, hk, h1, h2]

/-- The whole of a bit vector is a field of it. -/
theorem extract_whole {n : Nat} (b : BitVec n) : b.extractLsb' 0 n = b := by
  apply BitVec.eq_of_getLsbD_eq
  intro k hk
  simp [hk]

/-- Two adjacent fields make one. -/
theorem append_fields (w : Word) (lo m n : Nat) :
    w.extractLsb' (lo + n) m ++ w.extractLsb' lo n = w.extractLsb' lo (m + n) := by
  apply BitVec.eq_of_getLsbD_eq
  intro k hk
  rw [BitVec.getLsbD_append]
  by_cases h : k < n
  · simp [h, hk]
  · have h1 : k - n < m := by omega
    have h2 : lo + n + (k - n) = lo + k := by omega
    simp [h, h1, h2, hk]

/-! ### The fields by division -/

theorem fieldGroup_eq (w : Word) : fieldGroup w = Machine.wordGroup w := by
  have := w.isLt
  simp only [fieldGroup, Machine.wordGroup, BitVec.extractLsb'_toNat, Nat.shiftRight_eq_div_pow]
  omega

theorem fieldX_eq (w : Word) : fieldX w = Machine.wordX w := by
  apply Fin.ext
  simp [fieldX, regOfNibble, Machine.wordX, Nat.shiftRight_eq_div_pow]

theorem fieldY_eq (w : Word) : fieldY w = Machine.wordY w := by
  apply Fin.ext
  simp [fieldY, regOfNibble, Machine.wordY, Nat.shiftRight_eq_div_pow]

theorem fieldN_eq (w : Word) : fieldN w = Machine.wordN w := by
  apply BitVec.eq_of_toNat_eq
  simp [fieldN, Machine.wordN]

theorem fieldNN_eq (w : Word) : fieldNN w = Machine.wordNN w := by
  apply BitVec.eq_of_toNat_eq
  simp [fieldNN, Machine.wordNN]

theorem fieldNNN_eq (w : Word) : fieldNNN w = Machine.wordNNN w := by
  apply BitVec.eq_of_toNat_eq
  simp [fieldNNN, Machine.wordNNN]

theorem fieldN_toNat (w : Word) : (fieldN w).toNat = w.toNat % 16 := by
  simp [fieldN]

theorem fieldNN_toNat (w : Word) : (fieldNN w).toNat = w.toNat % 256 := by
  simp [fieldNN]

theorem fieldNNN_toNat (w : Word) : (fieldNNN w).toNat = w.toNat % 4096 := by
  simp [fieldNNN]

/-- The register BNNN reads is the top nibble of NNN. -/
theorem topRegOfAddr_eq (nnn : Addr12) : topRegOfAddr nnn = Fin.ofNat 16 (nnn.toNat / 0x100) := by
  apply Fin.ext
  simp [topRegOfAddr, regOfNibble, Nat.shiftRight_eq_div_pow]

section Packed

variable (g : Nibble) (nnn : Addr12) (x y : Reg) (nn : Byte) (n : Nibble)

@[simp] theorem fieldGroup_packA : fieldGroup (packA g nnn) = g.toNat :=
  congrArg BitVec.toNat (extractHigh_append g nnn)

@[simp] theorem fieldNNN_packA : fieldNNN (packA g nnn) = nnn :=
  (extractLow_append g nnn (by omega)).trans (extract_whole nnn)

@[simp] theorem fieldGroup_packXI : fieldGroup (packXI g x nn) = g.toNat :=
  congrArg BitVec.toNat ((extractMid_append (g ++ nibbleOfReg x) nn (by omega)).trans (extractHigh_append g _))

@[simp] theorem fieldX_packXI : fieldX (packXI g x nn) = x :=
  congrArg regOfNibble ((extractMid_append (g ++ nibbleOfReg x) nn (lo := 8) (len := 4) (by omega)).trans
    ((extractLow_append g (nibbleOfReg x) (by omega)).trans (extract_whole _)))

@[simp] theorem fieldNN_packXI : fieldNN (packXI g x nn) = nn :=
  (extractLow_append (g ++ nibbleOfReg x) nn (by omega)).trans (extract_whole nn)

@[simp] theorem fieldGroup_packXYN : fieldGroup (packXYN g x y n) = g.toNat :=
  congrArg BitVec.toNat ((extractMid_append ((g ++ nibbleOfReg x) ++ nibbleOfReg y) n (lo := 12) (len := 4) (by omega)).trans
    ((extractMid_append (g ++ nibbleOfReg x) (nibbleOfReg y) (by omega)).trans (extractHigh_append g _)))

@[simp] theorem fieldX_packXYN : fieldX (packXYN g x y n) = x :=
  congrArg regOfNibble ((extractMid_append ((g ++ nibbleOfReg x) ++ nibbleOfReg y) n (lo := 8) (len := 4) (by omega)).trans
    ((extractMid_append (g ++ nibbleOfReg x) (nibbleOfReg y) (by omega)).trans
      ((extractLow_append g (nibbleOfReg x) (by omega)).trans (extract_whole _))))

@[simp] theorem fieldY_packXYN : fieldY (packXYN g x y n) = y :=
  congrArg regOfNibble ((extractMid_append ((g ++ nibbleOfReg x) ++ nibbleOfReg y) n (lo := 4) (len := 4) (by omega)).trans
    ((extractLow_append (g ++ nibbleOfReg x) (nibbleOfReg y) (by omega)).trans (extract_whole _)))

@[simp] theorem fieldN_packXYN : fieldN (packXYN g x y n) = n :=
  (extractLow_append ((g ++ nibbleOfReg x) ++ nibbleOfReg y) n (by omega)).trans (extract_whole n)

end Packed

/-- The bytes of a word, put together again, are the word. -/
@[simp] theorem wordOfBytes_bytes (w : Word) : wordOfBytes (highByte w) (lowByte w) = w :=
  (append_fields w 0 8 8).trans (extract_whole w)

/-- A word is its group followed by its NNN. -/
theorem packA_fields (w : Word) : packA (w.extractLsb' 12 4) (fieldNNN w) = w :=
  (append_fields w 0 4 12).trans (extract_whole w)

/-- A word is its group, its X and its NN. -/
theorem packXI_fields (w : Word) : packXI (w.extractLsb' 12 4) (fieldX w) (fieldNN w) = w :=
  (congrArg (· ++ fieldNN w) (append_fields w 8 4 4)).trans ((append_fields w 0 8 8).trans (extract_whole w))

/-- A word is its group, its X, its Y and its N. -/
theorem packXYN_fields (w : Word) : packXYN (w.extractLsb' 12 4) (fieldX w) (fieldY w) (fieldN w) = w :=
  (congrArg (fun h : BitVec 8 => (h ++ w.extractLsb' 4 4) ++ fieldN w) (append_fields w 8 4 4)).trans
    ((congrArg (fun h : BitVec 12 => h ++ fieldN w) (append_fields w 4 8 4)).trans
      ((append_fields w 0 12 4).trans (extract_whole w)))

/-- The word a fetch puts together, by arithmetic. -/
theorem wordOfBytes_eq (hi lo : Byte) : wordOfBytes hi lo = BitVec.ofNat 16 (hi.toNat * 256 + lo.toNat) := by
  apply BitVec.eq_of_toNat_eq
  have h1 := hi.isLt
  have h2 := lo.isLt
  have h3 : (wordOfBytes hi lo).toNat = hi.toNat <<< 8 ||| lo.toNat := BitVec.toNat_append hi lo
  have h4 : hi.toNat <<< 8 ||| lo.toNat = hi.toNat <<< 8 + lo.toNat := (Nat.shiftLeft_add_eq_or_of_lt h2 hi.toNat).symm
  have h5 : hi.toNat <<< 8 = hi.toNat * 256 := by rw [Nat.shiftLeft_eq]
  rw [h3, h4, h5, BitVec.toNat_ofNat]
  omega

/-- A fetch that succeeds reads the word at pc. -/
theorem Machine.fetch_wordAtPc {s : Machine.State} (h : s.pc.toNat ≤ 0x0FFE) : Machine.fetch s = .ok s.wordAtPc := by
  rw [Machine.fetch_eq, if_pos h, wordOfBytes_eq]
  rfl

end Sys2Proof
end

