-- ==== Sys2Proof/Laws/Display.lean ====
section
/-! SUPPORT. The blit engine, said pixel by pixel (spec 44 R148, R150): it toggles the pixels under lit sprite bits, reports
a collision in VF, and changes nothing else. -/

namespace Sys2Proof.Machine

/-- A pixel off the screen reads as off. -/
theorem State.pixel_off {s : State} {x y : Nat} (h : ¬ (x < 64 ∧ y < 32)) : s.pixel x y = false := by
  simp [State.pixel, h]

/-- Toggling changes its own pixel, if it is on the screen, and no other. -/
theorem State.pixel_togglePixel (s : State) (x y x' y' : Nat) :
    (s.togglePixel x y).pixel x' y' =
      if x' = x ∧ y' = y ∧ x < 64 ∧ y < 32 then !(s.pixel x' y') else s.pixel x' y' := by
  by_cases h : x < 64 ∧ y < 32
  · by_cases h' : x' < 64 ∧ y' < 32
    · by_cases hy : y' = y
      · subst hy
        by_cases hx : x' = x
        · subst hx
          simp [State.togglePixel, State.pixel, h, State.setFb]
        · have hx' : x ≠ x' := fun e => hx e.symm
          simp [State.togglePixel, State.pixel, h, h', State.setFb, hx, hx']
      · have hy' : y ≠ y' := fun e => hy e.symm
        simp [State.togglePixel, State.pixel, h, h', State.setFb, hy, hy']
    · have hne : ¬ (x' = x ∧ y' = y ∧ x < 64 ∧ y < 32) := by
        rintro ⟨rfl, rfl, hh⟩
        exact h' hh
      rw [if_neg hne, State.pixel_off h', State.pixel_off h']
  · have hne : ¬ (x' = x ∧ y' = y ∧ x < 64 ∧ y < 32) := fun e => h e.2.2
    rw [if_neg hne]
    simp [State.togglePixel, h]

@[simp] theorem State.togglePixel_getV (s : State) (x y : Nat) (r : Reg) : (s.togglePixel x y).getV r = s.getV r := by
  unfold State.togglePixel
  split <;> rfl

/-- Toggling changes the frame buffer only. -/
theorem State.togglePixel_frame (s : State) (x y : Nat) : s.togglePixel x y = s.setFb (s.togglePixel x y).fb := by
  unfold State.togglePixel
  split <;> rfl

/-- What a drawing operation may change: the frame buffer and VF. -/
def DrawsOnly (s t : State) : Prop :=
  t = { s with fb := t.fb, v := t.v } ∧ ∀ r, r ≠ VF → t.getV r = s.getV r

theorem DrawsOnly.refl (s : State) : DrawsOnly s s := ⟨rfl, fun _ _ => rfl⟩

theorem DrawsOnly.trans {s t u : State} (h : DrawsOnly s t) (h' : DrawsOnly t u) : DrawsOnly s u := by
  refine ⟨?_, fun r hr => (h'.2 r hr).trans (h.2 r hr)⟩
  rw [h'.1, h.1]

/-- One plotted bit: its pixel toggles, VF becomes 1 if the pixel was on, nothing else changes. -/
theorem plot_pixel (s : State) (x y x' y' : Nat) :
    (plot x y s).pixel x' y' = if x' = x ∧ y' = y ∧ x < 64 ∧ y < 32 then !(s.pixel x' y') else s.pixel x' y' := by
  unfold plot
  by_cases h : x < 64 ∧ y < 32
  · have hflag : ∀ a b, (if s.pixel x y = true then s.setFlag true else s).pixel a b = s.pixel a b := by
      intro a b
      split <;> rfl
    rw [if_pos h, State.pixel_togglePixel, hflag]
  · have hne : ¬ (x' = x ∧ y' = y ∧ x < 64 ∧ y < 32) := fun e => h e.2.2
    rw [if_neg h, if_neg hne]

theorem plot_vf (s : State) (x y : Nat) :
    (plot x y s).getV VF = if s.pixel x y = true then 1 else s.getV VF := by
  unfold plot
  by_cases h : x < 64 ∧ y < 32
  · simp only [h, if_true, State.togglePixel_getV, and_self]
    by_cases hp : s.pixel x y = true
    · simp [hp, State.getV_setFlag]
    · simp [hp]
  · simp [h, State.pixel_off h]

theorem plot_draws (s : State) (x y : Nat) : DrawsOnly s (plot x y s) := by
  unfold plot
  split
  · refine ⟨?_, fun r hr => ?_⟩
    · rw [State.togglePixel_frame]
      split <;> rfl
    · rw [State.togglePixel_getV]
      split
      · rw [State.getV_setFlag, if_neg hr]
      · rfl
  · exact DrawsOnly.refl s

/-- The lit bits of the first count columns of a row that starts at column x0. -/
def rowBit (x0 y : Nat) (row : Byte) (count x y' : Nat) : Bool :=
  decide (y' = y ∧ x0 ≤ x ∧ x < x0 + count) && row.getLsbD (7 - (x - x0))

theorem blitRow_draws (x0 y : Nat) (row : Byte) (count : Nat) (s : State) : DrawsOnly s (blitRow x0 y row count s) := by
  induction count with
  | zero => exact DrawsOnly.refl s
  | succ k ih =>
    simp only [blitRow]
    split
    · exact ih.trans (plot_draws _ _ _)
    · exact ih

theorem rowBit_succ (x0 y : Nat) (row : Byte) (k x y' : Nat) :
    rowBit x0 y row (k + 1) x y' = (rowBit x0 y row k x y' || (decide (y' = y ∧ x = x0 + k) && row.getLsbD (7 - k))) := by
  unfold rowBit
  by_cases hy : y' = y
  · by_cases hx : x = x0 + k
    · subst hx
      have h1 : ¬ (x0 + k < x0 + k) := by omega
      have h2 : x0 + k - x0 = k := by omega
      have h3 : x0 + k < x0 + (k + 1) := by omega
      simp [hy, h2]
    · have h3 : (x < x0 + (k + 1)) ↔ (x < x0 + k) := by omega
      simp [hy, hx, h3]
  · simp [hy]

/-- Row by row: a pixel toggles exactly when it is on the screen under a lit bit of the row. -/
theorem blitRow_pixel (x0 y : Nat) (row : Byte) (count : Nat) (s : State) (x y' : Nat) :
    (blitRow x0 y row count s).pixel x y' =
      if rowBit x0 y row count x y' = true ∧ x < 64 ∧ y' < 32 then !(s.pixel x y') else s.pixel x y' := by
  induction count with
  | zero =>
    have : rowBit x0 y row 0 x y' = false := by
      unfold rowBit
      rw [decide_eq_false (by omega), Bool.false_and]
    simp [blitRow, this]
  | succ k ih =>
    have hfresh : x = x0 + k → rowBit x0 y row k x y' = false := by
      intro hx
      unfold rowBit
      have : ¬ (y' = y ∧ x0 ≤ x ∧ x < x0 + k) := by omega
      simp [this]
    simp only [blitRow, rowBit_succ]
    by_cases hb : row.getLsbD (7 - k) = true
    · simp only [hb, if_true, plot_pixel, ih]
      by_cases hxy : x = x0 + k ∧ y' = y
      · obtain ⟨hx, hy⟩ := hxy
        have hf := hfresh hx
        subst hy
        subst hx
        by_cases hs : x0 + k < 64 ∧ y' < 32
        · simp [hf, hs.1, hs.2]
        · simp only [hf, hs, and_false, if_false]
      · have h1 : ¬ (x = x0 + k ∧ y' = y ∧ x0 + k < 64 ∧ y < 32) := fun e => hxy ⟨e.1, e.2.1⟩
        have h2 : ¬ (y' = y ∧ x = x0 + k) := fun e => hxy ⟨e.2, e.1⟩
        simp [h1, h2]
    · simp only [Bool.not_eq_true] at hb
      simp [hb, ih]

/-- Row by row: VF becomes 1 exactly when a pixel under a lit bit of the row was on. -/
theorem blitRow_vf (x0 y : Nat) (row : Byte) (count : Nat) (s : State) :
    ((∃ x y', s.pixel x y' = true ∧ rowBit x0 y row count x y' = true) → (blitRow x0 y row count s).getV VF = 1) ∧
    (¬ (∃ x y', s.pixel x y' = true ∧ rowBit x0 y row count x y' = true) →
      (blitRow x0 y row count s).getV VF = s.getV VF) := by
  induction count with
  | zero =>
    refine ⟨?_, fun _ => rfl⟩
    rintro ⟨x, y', -, h⟩
    simp only [rowBit, Bool.and_eq_true, decide_eq_true_eq] at h
    omega
  | succ k ih =>
    have hsame : (blitRow x0 y row k s).pixel (x0 + k) y = s.pixel (x0 + k) y := by
      rw [blitRow_pixel, if_neg]
      rintro ⟨h, -⟩
      unfold rowBit at h
      simp at h
    have hiff : (∃ x y', s.pixel x y' = true ∧ rowBit x0 y row (k + 1) x y' = true) ↔
        (∃ x y', s.pixel x y' = true ∧ rowBit x0 y row k x y' = true) ∨
          (s.pixel (x0 + k) y = true ∧ row.getLsbD (7 - k) = true) := by
      constructor
      · rintro ⟨x, y', hp, hr⟩
        rw [rowBit_succ] at hr
        rcases Bool.or_eq_true_iff.mp hr with h | h
        · exact .inl ⟨x, y', hp, h⟩
        · simp only [Bool.and_eq_true, decide_eq_true_eq] at h
          obtain ⟨⟨rfl, rfl⟩, hb⟩ := h
          exact .inr ⟨hp, hb⟩
      · rintro (⟨x, y', hp, hr⟩ | ⟨hp, hb⟩)
        · exact ⟨x, y', hp, by rw [rowBit_succ, hr, Bool.true_or]⟩
        · exact ⟨x0 + k, y, hp, by rw [rowBit_succ, hb]; simp⟩
    rw [hiff]
    simp only [blitRow]
    by_cases hb : row.getLsbD (7 - k) = true
    · simp only [hb, if_true, and_true, plot_vf, hsame]
      by_cases hp : s.pixel (x0 + k) y = true
      · simp [hp]
      · simp only [hp, Bool.false_eq_true, if_false, or_false]
        exact ih
    · simp only [hb, Bool.false_eq_true, if_false, and_false, or_false]
      exact ih

theorem blit_draws (x0 y0 : Nat) (rows : List Byte) (s : State) : DrawsOnly s (blit x0 y0 rows s) := by
  induction rows generalizing y0 s with
  | nil => exact DrawsOnly.refl s
  | cons row rest ih => exact (blitRow_draws x0 y0 row 8 s).trans (ih _ _)

theorem spriteBit_cons (x0 y0 : Nat) (row : Byte) (rest : List Byte) (x y : Nat) :
    spriteBit x0 y0 (row :: rest) x y = (rowBit x0 y0 row 8 x y || spriteBit x0 (y0 + 1) rest x y) := by
  unfold spriteBit rowBit
  by_cases hx : x0 ≤ x ∧ x < x0 + 8
  · by_cases hy : y = y0
    · subst hy
      have h1 : ¬ (y + 1 ≤ y) := by omega
      simp [hx.1, hx.2]
    · by_cases hy2 : y0 + 1 ≤ y ∧ y < y0 + 1 + rest.length
      · have h3 : y0 ≤ y ∧ y < y0 + (rest.length + 1) := by omega
        have h4 : y - y0 = (y - (y0 + 1)) + 1 := by omega
        simp [hx.1, hx.2, hy, hy2, h3, h4]
      · have h3 : ¬ (y0 ≤ y ∧ y < y0 + (rest.length + 1)) := by omega
        rw [decide_eq_false (fun e => h3 e.2.2), decide_eq_false (fun e => hy e.1), decide_eq_false (fun e => hy2 e.2.2)]
        rfl
  · rw [decide_eq_false (fun e => hx ⟨e.1, e.2.1⟩), decide_eq_false (fun e => hx e.2),
      decide_eq_false (fun e => hx ⟨e.1, e.2.1⟩)]
    rfl

theorem spriteBit_below (x0 y0 : Nat) (rows : List Byte) {x y : Nat} (h : y < y0) : spriteBit x0 y0 rows x y = false := by
  unfold spriteBit
  have : ¬ (x0 ≤ x ∧ x < x0 + 8 ∧ y0 ≤ y ∧ y < y0 + rows.length) := by omega
  simp [this]

/-- The blit engine toggles exactly the pixels of the screen that lie under a lit bit of the sprite (44 R148). -/
theorem blit_pixel (x0 y0 : Nat) (rows : List Byte) (s : State) (x y : Nat) :
    (blit x0 y0 rows s).pixel x y =
      if spriteBit x0 y0 rows x y = true ∧ x < 64 ∧ y < 32 then !(s.pixel x y) else s.pixel x y := by
  induction rows generalizing y0 s with
  | nil =>
    have : spriteBit x0 y0 [] x y = false := by
      unfold spriteBit
      rw [decide_eq_false (by simp only [List.length_nil]; omega), Bool.false_and]
    simp [blit, this]
  | cons row rest ih =>
    simp only [blit, ih, blitRow_pixel, spriteBit_cons]
    by_cases hy : y = y0
    · have hb := spriteBit_below x0 (y0 + 1) rest (x := x) (y := y) (by omega)
      simp [hb]
    · have hr : rowBit x0 y0 row 8 x y = false := by simp [rowBit, hy]
      simp [hr]

/-- The blit engine leaves 1 in VF if a pixel under a lit bit was on, and VF alone otherwise (44 R148, R150). -/
theorem blit_vf (x0 y0 : Nat) (rows : List Byte) (s : State) :
    (collides s x0 y0 rows → (blit x0 y0 rows s).getV VF = 1) ∧
    (¬ collides s x0 y0 rows → (blit x0 y0 rows s).getV VF = s.getV VF) := by
  induction rows generalizing y0 s with
  | nil =>
    refine ⟨?_, fun _ => rfl⟩
    rintro ⟨x, y, -, h⟩
    unfold spriteBit at h
    simp only [List.length_nil, Nat.add_zero, Bool.and_eq_true, decide_eq_true_eq] at h
    omega
  | cons row rest ih =>
    have hlater : collides (blitRow x0 y0 row 8 s) x0 (y0 + 1) rest ↔ collides s x0 (y0 + 1) rest := by
      have hpix : ∀ x y, spriteBit x0 (y0 + 1) rest x y = true →
          (blitRow x0 y0 row 8 s).pixel x y = s.pixel x y := by
        intro x y h
        have hy : y ≠ y0 := by
          rintro rfl
          rw [spriteBit_below _ _ _ (by omega)] at h
          cases h
        rw [blitRow_pixel, if_neg]
        rintro ⟨h', -⟩
        simp [rowBit, hy] at h'
      constructor
      · rintro ⟨x, y, hp, hb⟩
        exact ⟨x, y, by rw [← hpix x y hb]; exact hp, hb⟩
      · rintro ⟨x, y, hp, hb⟩
        exact ⟨x, y, by rw [hpix x y hb]; exact hp, hb⟩
    have hsplit : collides s x0 y0 (row :: rest) ↔
        (∃ x y, s.pixel x y = true ∧ rowBit x0 y0 row 8 x y = true) ∨ collides s x0 (y0 + 1) rest := by
      constructor
      · rintro ⟨x, y, hp, hb⟩
        rw [spriteBit_cons] at hb
        rcases Bool.or_eq_true_iff.mp hb with h | h
        · exact .inl ⟨x, y, hp, h⟩
        · exact .inr ⟨x, y, hp, h⟩
      · rintro (⟨x, y, hp, h⟩ | ⟨x, y, hp, h⟩)
        · exact ⟨x, y, hp, by rw [spriteBit_cons, h, Bool.true_or]⟩
        · exact ⟨x, y, hp, by rw [spriteBit_cons, h, Bool.or_true]⟩
    have hrow := blitRow_vf x0 y0 row 8 s
    have hrest := ih (y0 + 1) (blitRow x0 y0 row 8 s)
    rw [hlater] at hrest
    rw [hsplit]
    simp only [blit]
    by_cases hc : collides s x0 (y0 + 1) rest
    · exact ⟨fun _ => hrest.1 hc, fun h => absurd (Or.inr hc) h⟩
    · rw [hrest.2 hc]
      refine ⟨?_, fun h => hrow.2 (fun e => h (.inl e))⟩
      rintro (h | h)
      · exact hrow.1 h
      · exact absurd h hc

@[simp] theorem spriteRows_length (s : State) (count : Nat) : (spriteRows s count).length = count := by
  simp [spriteRows]

end Sys2Proof.Machine
end

