-- ==== Sys2Proof/Laws/PerInstr.lean ====
section
/-! SUPPORT. The family TableRow: the word of every instruction carries the fixed bits of its row of spec/opcode_table.json,
(w AND mask) = match (spec 30 R65). -/

namespace Sys2Proof.Laws

/-- The mask of an instruction's row (30 R65). -/
def rowMask : Instr → Word
  | .cls => 0xFFFF
  | .ret => 0xFFFF
  | .sys _ => 0xF000
  | .jp _ => 0xF000
  | .call _ => 0xF000
  | .seByte _ _ => 0xF000
  | .sneByte _ _ => 0xF000
  | .seReg _ _ _ => 0xF000
  | .ldByte _ _ => 0xF000
  | .addByte _ _ => 0xF000
  | .ldReg _ _ => 0xF00F
  | .orReg _ _ => 0xF00F
  | .andReg _ _ => 0xF00F
  | .xorReg _ _ => 0xF00F
  | .addReg _ _ => 0xF00F
  | .subReg _ _ => 0xF00F
  | .shr _ _ => 0xF00F
  | .subnReg _ _ => 0xF00F
  | .shl _ _ => 0xF00F
  | .sneReg _ _ _ => 0xF000
  | .ldI _ => 0xF000
  | .jpV0 _ => 0xF000
  | .rnd _ _ => 0xF000
  | .drw _ _ _ => 0xF000
  | .skp _ => 0xF0FF
  | .sknp _ => 0xF0FF
  | .ldFromDt _ => 0xF0FF
  | .ldKey _ => 0xF0FF
  | .ldDt _ => 0xF0FF
  | .ldSt _ => 0xF0FF
  | .addI _ => 0xF0FF
  | .ldFont _ => 0xF0FF
  | .ldBcd _ => 0xF0FF
  | .storeRegs _ => 0xF0FF
  | .loadRegs _ => 0xF0FF
  | .illegal _ => 0x0000

/-- The match of an instruction's row (30 R65). -/
def rowMatch : Instr → Word
  | .cls => 0x00E0
  | .ret => 0x00EE
  | .sys _ => 0x0000
  | .jp _ => 0x1000
  | .call _ => 0x2000
  | .seByte _ _ => 0x3000
  | .sneByte _ _ => 0x4000
  | .seReg _ _ _ => 0x5000
  | .ldByte _ _ => 0x6000
  | .addByte _ _ => 0x7000
  | .ldReg _ _ => 0x8000
  | .orReg _ _ => 0x8001
  | .andReg _ _ => 0x8002
  | .xorReg _ _ => 0x8003
  | .addReg _ _ => 0x8004
  | .subReg _ _ => 0x8005
  | .shr _ _ => 0x8006
  | .subnReg _ _ => 0x8007
  | .shl _ _ => 0x800E
  | .sneReg _ _ _ => 0x9000
  | .ldI _ => 0xA000
  | .jpV0 _ => 0xB000
  | .rnd _ _ => 0xC000
  | .drw _ _ _ => 0xD000
  | .skp _ => 0xE09E
  | .sknp _ => 0xE0A1
  | .ldFromDt _ => 0xF007
  | .ldKey _ => 0xF00A
  | .ldDt _ => 0xF015
  | .ldSt _ => 0xF018
  | .addI _ => 0xF01E
  | .ldFont _ => 0xF029
  | .ldBcd _ => 0xF033
  | .storeRegs _ => 0xF055
  | .loadRegs _ => 0xF065
  | .illegal _ => 0x0000

/-- The word of the instruction has the fixed bits of its row. -/
def TableRow.Statement (i : Instr) : Prop := encode i &&& rowMask i = rowMatch i

theorem nibble_and_ones (g : Nibble) : g &&& 0xF = g := by
  revert g
  decide

theorem byte_and_ones (b : Byte) : b &&& 0xFF = b := by
  revert b
  decide

/-- Format A keeps its group. -/
theorem packA_and (g : Nibble) (nnn : Addr12) : packA g nnn &&& 0xF000 = g ++ 0#12 := by
  have h : packA g nnn &&& 0xF000 = (g ++ nnn) &&& ((0xF : Nibble) ++ 0#12) := rfl
  rw [h, BitVec.and_append, nibble_and_ones, BitVec.and_zero]

/-- Format XI keeps its group. -/
theorem packXI_and (g : Nibble) (x : Reg) (nn : Byte) : packXI g x nn &&& 0xF000 = (g ++ 0#4) ++ 0#8 := by
  have h : packXI g x nn &&& 0xF000 =
      ((g ++ nibbleOfReg x) ++ nn) &&& (((0xF : Nibble) ++ 0#4) ++ 0#8) := rfl
  rw [h, BitVec.and_append, BitVec.and_append, nibble_and_ones, BitVec.and_zero, BitVec.and_zero]

/-- Format XS keeps its group and its NN. -/
theorem packXS_and (g : Nibble) (x : Reg) (nn : Byte) : packXI g x nn &&& 0xF0FF = (g ++ 0#4) ++ nn := by
  have h : packXI g x nn &&& 0xF0FF =
      ((g ++ nibbleOfReg x) ++ nn) &&& (((0xF : Nibble) ++ 0#4) ++ (0xFF : BitVec 8)) := rfl
  rw [h, BitVec.and_append, BitVec.and_append, nibble_and_ones, BitVec.and_zero, byte_and_ones]

/-- Format XYN keeps its group. -/
theorem packXYN_and (g : Nibble) (x y : Reg) (n : Nibble) :
    packXYN g x y n &&& 0xF000 = ((g ++ 0#4) ++ 0#4) ++ 0#4 := by
  have h : packXYN g x y n &&& 0xF000 = (((g ++ nibbleOfReg x) ++ nibbleOfReg y) ++ n) &&&
      ((((0xF : Nibble) ++ 0#4) ++ 0#4) ++ 0#4) := rfl
  rw [h, BitVec.and_append, BitVec.and_append, BitVec.and_append, nibble_and_ones, BitVec.and_zero, BitVec.and_zero,
    BitVec.and_zero]

/-- Format XY keeps its group and its N. -/
theorem packXY_and (g : Nibble) (x y : Reg) (n : Nibble) :
    packXYN g x y n &&& 0xF00F = ((g ++ 0#4) ++ 0#4) ++ n := by
  have h : packXYN g x y n &&& 0xF00F = (((g ++ nibbleOfReg x) ++ nibbleOfReg y) ++ n) &&&
      ((((0xF : Nibble) ++ 0#4) ++ 0#4) ++ (0xF : Nibble)) := rfl
  rw [h, BitVec.and_append, BitVec.and_append, BitVec.and_append, nibble_and_ones, nibble_and_ones, BitVec.and_zero,
    BitVec.and_zero]

theorem TableRow.cls : TableRow.Statement (.cls) := rfl
theorem TableRow.ret : TableRow.Statement (.ret) := rfl
theorem TableRow.sys (nnn : Addr12) : TableRow.Statement (.sys nnn) := packA_and 0x0 nnn
theorem TableRow.jp (nnn : Addr12) : TableRow.Statement (.jp nnn) := packA_and 0x1 nnn
theorem TableRow.call (nnn : Addr12) : TableRow.Statement (.call nnn) := packA_and 0x2 nnn
theorem TableRow.seByte (x : Reg) (nn : Byte) : TableRow.Statement (.seByte x nn) := packXI_and 0x3 x nn
theorem TableRow.sneByte (x : Reg) (nn : Byte) : TableRow.Statement (.sneByte x nn) := packXI_and 0x4 x nn
theorem TableRow.seReg (x : Reg) (y : Reg) (n : Nibble) : TableRow.Statement (.seReg x y n) := packXYN_and 0x5 x y n
theorem TableRow.ldByte (x : Reg) (nn : Byte) : TableRow.Statement (.ldByte x nn) := packXI_and 0x6 x nn
theorem TableRow.addByte (x : Reg) (nn : Byte) : TableRow.Statement (.addByte x nn) := packXI_and 0x7 x nn
theorem TableRow.ldReg (x : Reg) (y : Reg) : TableRow.Statement (.ldReg x y) := packXY_and 0x8 x y 0x0
theorem TableRow.orReg (x : Reg) (y : Reg) : TableRow.Statement (.orReg x y) := packXY_and 0x8 x y 0x1
theorem TableRow.andReg (x : Reg) (y : Reg) : TableRow.Statement (.andReg x y) := packXY_and 0x8 x y 0x2
theorem TableRow.xorReg (x : Reg) (y : Reg) : TableRow.Statement (.xorReg x y) := packXY_and 0x8 x y 0x3
theorem TableRow.addReg (x : Reg) (y : Reg) : TableRow.Statement (.addReg x y) := packXY_and 0x8 x y 0x4
theorem TableRow.subReg (x : Reg) (y : Reg) : TableRow.Statement (.subReg x y) := packXY_and 0x8 x y 0x5
theorem TableRow.shr (x : Reg) (y : Reg) : TableRow.Statement (.shr x y) := packXY_and 0x8 x y 0x6
theorem TableRow.subnReg (x : Reg) (y : Reg) : TableRow.Statement (.subnReg x y) := packXY_and 0x8 x y 0x7
theorem TableRow.shl (x : Reg) (y : Reg) : TableRow.Statement (.shl x y) := packXY_and 0x8 x y 0xE
theorem TableRow.sneReg (x : Reg) (y : Reg) (n : Nibble) : TableRow.Statement (.sneReg x y n) := packXYN_and 0x9 x y n
theorem TableRow.ldI (nnn : Addr12) : TableRow.Statement (.ldI nnn) := packA_and 0xA nnn
theorem TableRow.jpV0 (nnn : Addr12) : TableRow.Statement (.jpV0 nnn) := packA_and 0xB nnn
theorem TableRow.rnd (x : Reg) (nn : Byte) : TableRow.Statement (.rnd x nn) := packXI_and 0xC x nn
theorem TableRow.drw (x : Reg) (y : Reg) (n : Nibble) : TableRow.Statement (.drw x y n) := packXYN_and 0xD x y n
theorem TableRow.skp (x : Reg) : TableRow.Statement (.skp x) := packXS_and 0xE x 0x9E
theorem TableRow.sknp (x : Reg) : TableRow.Statement (.sknp x) := packXS_and 0xE x 0xA1
theorem TableRow.ldFromDt (x : Reg) : TableRow.Statement (.ldFromDt x) := packXS_and 0xF x 0x07
theorem TableRow.ldKey (x : Reg) : TableRow.Statement (.ldKey x) := packXS_and 0xF x 0x0A
theorem TableRow.ldDt (x : Reg) : TableRow.Statement (.ldDt x) := packXS_and 0xF x 0x15
theorem TableRow.ldSt (x : Reg) : TableRow.Statement (.ldSt x) := packXS_and 0xF x 0x18
theorem TableRow.addI (x : Reg) : TableRow.Statement (.addI x) := packXS_and 0xF x 0x1E
theorem TableRow.ldFont (x : Reg) : TableRow.Statement (.ldFont x) := packXS_and 0xF x 0x29
theorem TableRow.ldBcd (x : Reg) : TableRow.Statement (.ldBcd x) := packXS_and 0xF x 0x33
theorem TableRow.storeRegs (x : Reg) : TableRow.Statement (.storeRegs x) := packXS_and 0xF x 0x55
theorem TableRow.loadRegs (x : Reg) : TableRow.Statement (.loadRegs x) := packXS_and 0xF x 0x65
theorem TableRow.illegal (w : Word) : TableRow.Statement (.illegal w) := BitVec.and_zero

end Sys2Proof.Laws
end

