-- ==== Sys2Proof/Tests/Slice0.lean ====
section
/-! SUPPORT. The model's own tests: ill-formed terms are refused, words written out from spec 30 R65 decode to their
instructions, single steps give the results of spec 95 (the vector is named beside each), and a concrete state and operands
meet the hypotheses of every statement. -/

namespace Sys2Proof.Tests

open Sys2Proof Sys2Proof.Machine

/-! ### Small states -/

/-- The conventions of spec 95: reset, STACK_DEPTH 16, threshold 16 ms, field mode, one step of quiet inputs. -/
def start : State :=
  { State.reset with
    params := { stackDepth := some 16, timerThreshold := 16000000, keyOperandMode := .field, font := fontRom }
    inputs := [StepInput.quiet] }

/-- Registers written. -/
def withV (l : List (Reg × Byte)) (s : State) : State := l.foldl (fun t p => t.setV p.1 p.2) s

/-- Bytes written from an address. -/
def withBytes (base : Nat) (l : List Byte) (s : State) : State := copyBytes base l s

/-- The next step's inputs changed. -/
def withInput (f : StepInput → StepInput) (s : State) : State := { s with inputs := [f StepInput.quiet] }

/-- The gate of the next step fires (95: FIRE = 1). -/
def firing (s : State) : State := withInput (fun n => { n with elapsed := 16000001 }) s

/-- The three quirks of the next step, in the order of spec 95. -/
def withQuirks (shift jump increment : Bool) (s : State) : State :=
  withInput (fun n =>
    { n with quirks := { shiftSource := shift, jumpOffset := jump, storeLoadIncrement := increment } }) s

/-- One step over a word, and what of the next state is looked at. -/
def after {α : Type} (w : Nat) (s : State) (view : State → α) : Option α :=
  match step (s.withFetchWord 16 w) with
  | .next t => some (view t)
  | .fault _ => none
  | .refused _ => none

/-- One step over whatever stands at pc. -/
def stepped {α : Type} (s : State) (view : State → α) : Option α :=
  match step s with
  | .next t => some (view t)
  | .fault _ => none
  | .refused _ => none

/-- A ROM load. -/
def loaded {α : Type} (rom : List Byte) (s : State) (view : State → α) : Option α :=
  match loadRom rom s with
  | .next t => some (view t)
  | .fault _ => none
  | .refused _ => none

/-- The pixels of a list that are lit. -/
def lit (l : List (Nat × Nat)) (s : State) : List Bool := l.map (fun p => s.pixel p.1 p.2)

/-! ### WellFormed -/

theorem test_wf_sys_refuses_cls_and_ret :
    (Instr.sys 0x0E0).wellFormed = false ∧ (Instr.sys 0x0EE).wellFormed = false ∧ (Instr.sys 0x1E0).wellFormed = true := by
  decide

theorem test_wf_illegal_refuses_a_word_with_a_row :
    (Instr.illegal 0x1234).wellFormed = false ∧ (Instr.illegal 0x8127).wellFormed = false ∧
    (Instr.illegal 0xE09E).wellFormed = false ∧ (Instr.illegal 0xF065).wellFormed = false ∧
    (Instr.illegal 0x00E0).wellFormed = false ∧ (Instr.illegal 0x8128).wellFormed = true := by
  decide

/-! ### Decoding, from the encodings of 30 R65 -/

theorem test_decode_group_0 :
    decode 0b0000000011100000 = .cls ∧ decode 0b0000000011101110 = .ret ∧ decode 0b0000000111100000 = .sys 0x1E0 ∧
    decode 0b0000000000000000 = .sys 0x000 := by
  decide

theorem test_decode_flow :
    decode 0b0001101010111100 = .jp 0xABC ∧ decode 0b0010001100000000 = .call 0x300 ∧
    decode 0b0011101001000010 = .seByte 10 0x42 ∧ decode 0b0100101001000010 = .sneByte 10 0x42 ∧
    decode 0b0101101010110111 = .seReg 10 11 7 ∧ decode 0b1001101010111111 = .sneReg 10 11 15 ∧
    decode 0b1011000100100011 = .jpV0 0x123 := by
  decide

theorem test_decode_alu :
    decode 0b0110101001010101 = .ldByte 10 0x55 ∧ decode 0b0111010100000001 = .addByte 5 1 ∧
    decode 0b1000000100100000 = .ldReg 1 2 ∧ decode 0b1000000100100001 = .orReg 1 2 ∧
    decode 0b1000000100100010 = .andReg 1 2 ∧ decode 0b1000000100100011 = .xorReg 1 2 ∧
    decode 0b1000000100100100 = .addReg 1 2 ∧ decode 0b1000000100100101 = .subReg 1 2 ∧
    decode 0b1000000100100110 = .shr 1 2 ∧ decode 0b1000000100100111 = .subnReg 1 2 ∧
    decode 0b1000000100101110 = .shl 1 2 ∧ decode 0b1100001100001111 = .rnd 3 0x0F := by
  decide

theorem test_decode_index_display_keypad_timers :
    decode 0b1010111111111111 = .ldI 0xFFF ∧ decode 0b1101100010010011 = .drw 8 9 3 ∧
    decode 0b1110010110011110 = .skp 5 ∧ decode 0b1110010110100001 = .sknp 5 ∧
    decode 0b1111000100000111 = .ldFromDt 1 ∧ decode 0b1111001100001010 = .ldKey 3 ∧
    decode 0b1111000000010101 = .ldDt 0 ∧ decode 0b1111001000011000 = .ldSt 2 ∧
    decode 0b1111000100011110 = .addI 1 ∧ decode 0b1111000000101001 = .ldFont 0 ∧
    decode 0b1111000000110011 = .ldBcd 0 ∧ decode 0b1111001101010101 = .storeRegs 3 ∧
    decode 0b1111111101100101 = .loadRegs 15 := by
  decide

/-- V-ILL-4, V-ILL-5, V-ILL-6. -/
theorem test_decode_illegal :
    decode 0x8128 = .illegal 0x8128 ∧ decode 0x812D = .illegal 0x812D ∧ decode 0x812F = .illegal 0x812F ∧
    decode 0xE09F = .illegal 0xE09F ∧ decode 0xEFFF = .illegal 0xEFFF ∧ decode 0xF0FF = .illegal 0xF0FF ∧
    decode 0xF075 = .illegal 0xF075 := by
  decide

theorem test_decode_bytes :
    decodeBytes [0xD8, 0x93, 0x12] = .ok (.drw 8 9 3, [0x12]) ∧ decodeBytes [0x12] = .error .truncated ∧
    decodeBytes [] = .error .truncated ∧ decodeTableWord 16 0xD893 = some (.drw 8 9 3) := by
  decide

/-! ### Fetch and faults -/

/-- V-FET-2: no alignment. -/
theorem test_fetch_at_odd_address :
    after 0x6A55 (start.setPc 0x301) (fun t => (t.getV 10, t.pc)) = some (0x55, 0x303) := by
  decide

/-- V-FET-3: the last legal fetch. -/
theorem test_fetch_at_last_address :
    after 0x3000 (start.setPc 0xFFE) (fun t => (t.pc, t.fault)) = some (0x1002, none) := by
  decide

/-- V-FET-4, V-FET-6. -/
theorem test_fetch_out_of_range :
    stepped (start.setPc 0xFFF) (fun t => (t.pc, t.fault)) = some (0xFFF, some (.memoryOutOfRange 0x1000)) ∧
    stepped (start.setPc 0x1002) (fun t => (t.pc, t.fault)) = some (0x1002, some (.memoryOutOfRange 0x1002)) := by
  decide

/-- V-ILL-3. -/
theorem test_sys_faults :
    after 0x0FFF (start.setPc 0x345) (fun t => (t.pc, t.fault)) = some (0x347, some (.unsupportedOpcode 0x0FFF 0x347)) := by
  decide

/-- V-ILL-4. -/
theorem test_illegal_faults :
    after 0x8128 (withV [(1, 0x11), (2, 0x22)] start) (fun t => (t.getV 1, t.getV VF, t.fault)) =
      some (0x11, 0, some (.unsupportedOpcode 0x8128 0x202)) := by
  decide

/-- V-ILL-7, V-ILL-8: no gate in a faulting step, nothing at all after it. -/
theorem test_fault_stops_timers :
    after 0x0000 (firing ((start.setDt 3).setSt 3)) (fun t => (t.dt, t.st, t.redraw, t.tone)) = some (3, 3, false, true) ∧
    stepped ({ (firing ((start.setDt 3).setSt 3)) with fault := some (.unsupportedOpcode 0 0x202), redraw := true })
      (fun t => (t.dt, t.st, t.redraw, t.tone, t.pc)) = some (3, 3, false, true, 0x200) := by
  decide

/-! ### Control transfer -/

/-- V-JP-1. -/
theorem test_jp : after 0x1ABC start (fun t => t.pc) = some 0xABC := by decide

/-- V-CALL-1. -/
theorem test_call : after 0x2ABC (start.setPc 0xFFE) (fun t => (t.pc, t.stack)) = some (0xABC, [0x1000]) := by decide

/-- V-CALL-2. -/
theorem test_call_on_full_stack :
    after 0x2300 { start with stack := [0xABC, 0x206], params := { start.params with stackDepth := some 2 } }
      (fun t => (t.pc, t.stack, t.fault)) = some (0x202, [0xABC, 0x206], some .stackOverflow) := by
  decide

/-- V-RET-1, bottom first in the spec. -/
theorem test_ret : after 0x00EE (start.setStack [0xABC, 0x206]) (fun t => (t.pc, t.stack)) = some (0xABC, [0x206]) := by decide

/-- S10. -/
theorem test_ret_on_empty_stack :
    after 0x00EE start (fun t => (t.pc, t.stack, t.fault)) = some (0x202, [], some .stackUnderflow) := by
  decide

/-- V-SE-1, V-SE-2. -/
theorem test_se_byte :
    after 0x3A42 (withV [(10, 0x42)] start) (fun t => t.pc) = some 0x204 ∧
    after 0x3A42 (withV [(10, 0x43)] start) (fun t => t.pc) = some 0x202 := by
  decide

/-- V-SNE-1, V-SNE-2. -/
theorem test_sne_byte :
    after 0x4A42 (withV [(10, 0x43)] start) (fun t => t.pc) = some 0x204 ∧
    after 0x4A42 (withV [(10, 0x42)] start) (fun t => t.pc) = some 0x202 := by
  decide

/-- V-SER-2, V-SER-3. -/
theorem test_se_reg :
    after 0x5AB0 (withV [(10, 0x77), (11, 0x78)] start) (fun t => t.pc) = some 0x202 ∧
    after 0x5AB7 (withV [(10, 0x77), (11, 0x77)] start) (fun t => (t.pc, t.fault)) = some (0x204, none) := by
  decide

/-- V-SNER-2, V-SNER-3. -/
theorem test_sne_reg :
    after 0x9AB0 (withV [(10, 0x77), (11, 0x77)] start) (fun t => t.pc) = some 0x202 ∧
    after 0x9ABF (withV [(10, 0x77), (11, 0x78)] start) (fun t => (t.pc, t.fault)) = some (0x204, none) := by
  decide

/-- S6. -/
theorem test_jp_v0 :
    after 0xB123 (withV [(0, 0x05), (1, 0x50)] start) (fun t => t.pc) = some 0x128 ∧
    after 0xB123 (withQuirks false false false (withV [(0, 0x05), (1, 0x50)] start)) (fun t => t.pc) = some 0x173 := by
  decide

/-- V-JPV-3. -/
theorem test_jp_v0_is_not_masked : after 0xBFFF (withV [(0, 0xFF)] start) (fun t => t.pc) = some 0x10FE := by decide

/-! ### ALU -/

/-- V-LD-2. -/
theorem test_ld_byte : after 0x6F12 start (fun t => (t.getV VF, t.pc)) = some (0x12, 0x202) := by decide

/-- V-ADDB-1. -/
theorem test_add_byte_wraps :
    after 0x7501 (withV [(5, 0xFF), (15, 7)] start) (fun t => (t.getV 5, t.getV VF)) = some (0, 7) := by
  decide

/-- V-MOV-1. -/
theorem test_ld_reg : after 0x8120 (withV [(2, 0x33)] start) (fun t => (t.getV 1, t.getV 2)) = some (0x33, 0x33) := by decide

/-- V-OR-1. -/
theorem test_or :
    after 0x8121 (withV [(1, 0xF0), (2, 0x0F), (15, 9)] start) (fun t => (t.getV 1, t.getV VF)) = some (0xFF, 9) := by
  decide

/-- V-AND-1. -/
theorem test_and :
    after 0x8122 (withV [(1, 0xF3), (2, 0x3F), (15, 9)] start) (fun t => (t.getV 1, t.getV VF)) = some (0x33, 9) := by
  decide

/-- V-XOR-1. -/
theorem test_xor :
    after 0x8123 (withV [(1, 0xFF), (2, 0x0F), (15, 9)] start) (fun t => (t.getV 1, t.getV VF)) = some (0xF0, 9) := by
  decide

/-- V-ADD-3, V-ADD-4. -/
theorem test_add :
    after 0x8564 (withV [(5, 0xFE), (6, 1), (15, 1)] start) (fun t => (t.getV 5, t.getV VF)) = some (0xFF, 0) ∧
    after 0x8564 (withV [(5, 0xFF), (6, 1)] start) (fun t => (t.getV 5, t.getV VF)) = some (0x00, 1) := by
  decide

/-- V-ADD-6, V-ADD-7, V-ADD-8. -/
theorem test_add_with_vf :
    after 0x8F64 (withV [(15, 0xF0), (6, 0x20)] start) (fun t => t.getV VF) = some 0x10 ∧
    after 0x85F4 (withV [(5, 0xFF), (15, 2)] start) (fun t => (t.getV 5, t.getV VF)) = some (1, 1) ∧
    after 0x8FF4 (withV [(15, 0x81)] start) (fun t => t.getV VF) = some 2 := by
  decide

/-- V-SUB-2, V-SUB-3. -/
theorem test_sub :
    after 0x8125 (withV [(1, 1), (2, 2)] start) (fun t => (t.getV 1, t.getV VF)) = some (0xFF, 0) ∧
    after 0x8125 (withV [(1, 7), (2, 7)] start) (fun t => (t.getV 1, t.getV VF)) = some (0, 0) := by
  decide

/-- V-SUB-5, V-SUB-7, V-SUB-8. -/
theorem test_sub_with_vf :
    after 0x81F5 (withV [(1, 0x10), (15, 5)] start) (fun t => (t.getV 1, t.getV VF)) = some (0x0F, 1) ∧
    after 0x8F25 (withV [(15, 0x10), (2, 3)] start) (fun t => t.getV VF) = some 0xFE ∧
    after 0x8F25 (withV [(15, 2), (2, 3)] start) (fun t => t.getV VF) = some 0xFD := by
  decide

/-- V-SUBN-1, V-SUBN-3. -/
theorem test_subn :
    after 0x8127 (withV [(1, 1), (2, 0x10)] start) (fun t => (t.getV 1, t.getV VF)) = some (0x0F, 1) ∧
    after 0x8127 (withV [(1, 7), (2, 7)] start) (fun t => (t.getV 1, t.getV VF)) = some (0, 0) := by
  decide

/-- V-SUBN-4, V-SUBN-5, V-SUBN-6. -/
theorem test_subn_with_vf :
    after 0x81F7 (withV [(1, 3), (15, 5)] start) (fun t => (t.getV 1, t.getV VF)) = some (0xFE, 1) ∧
    after 0x81F7 (withV [(1, 9), (15, 5)] start) (fun t => (t.getV 1, t.getV VF)) = some (0xF7, 0) ∧
    after 0x8F27 (withV [(15, 3), (2, 0x10)] start) (fun t => t.getV VF) = some 0x0F := by
  decide

/-- V-SHR-1, V-SHR-3. -/
theorem test_shr :
    after 0x8566 (withV [(5, 0xAA), (6, 3)] start) (fun t => (t.getV 5, t.getV VF, t.getV 6)) = some (0x55, 0, 3) ∧
    after 0x8566 (withQuirks true true false (withV [(5, 0xAA), (6, 3)] start))
      (fun t => (t.getV 5, t.getV VF, t.getV 6)) = some (1, 1, 3) := by
  decide

/-- V-SHR-5, V-SHR-7. -/
theorem test_shr_with_vf :
    after 0x8F66 (withV [(15, 0xFF)] start) (fun t => t.getV VF) = some 0 ∧
    after 0x85F6 (withQuirks true true false (withV [(15, 7)] start)) (fun t => (t.getV 5, t.getV VF)) = some (3, 1) := by
  decide

/-- V-SHL-1, V-SHL-4. -/
theorem test_shl :
    after 0x850E (withV [(5, 0xAA)] start) (fun t => (t.getV 5, t.getV VF)) = some (0x54, 1) ∧
    after 0x856E (withQuirks true true false (withV [(6, 0xC1)] start))
      (fun t => (t.getV 5, t.getV VF, t.getV 6)) = some (0x82, 1, 0xC1) := by
  decide

/-- V-SHL-5, V-SHL-8. -/
theorem test_shl_with_vf :
    after 0x8F0E (withV [(15, 0xFF)] start) (fun t => t.getV VF) = some 2 ∧
    after 0x85FE (withQuirks true true false (withV [(15, 0x81)] start)) (fun t => (t.getV 5, t.getV VF)) = some (2, 1) := by
  decide

/-- V-RND-1. -/
theorem test_rnd : after 0xC30F (withInput (fun n => { n with rnd := 0xA7 }) start) (fun t => t.getV 3) = some 7 := by decide

/-! ### Index register and memory -/

/-- V-LDI-1. -/
theorem test_ld_i : after 0xAFFF start (fun t => t.i) = some 0xFFF := by decide

/-- V-ADDI-2, V-ADDI-3. -/
theorem test_add_i :
    after 0xF11E (withV [(1, 1), (15, 1)] (start.setI 0xFFE)) (fun t => (t.i, t.getV VF)) = some (0xFFF, 0) ∧
    after 0xF11E (withV [(1, 1)] (start.setI 0xFFF)) (fun t => (t.i, t.getV VF)) = some (1, 1) := by
  decide

/-- V-ADDI-6. -/
theorem test_add_i_with_vf :
    after 0xFF1E (withV [(15, 3)] (start.setI 0xFFF)) (fun t => (t.i, t.getV VF)) = some (3, 1) := by
  decide

/-- V-FNT-1, V-FNT-4. -/
theorem test_ld_font :
    after 0xF029 (withV [(0, 0x0A)] start) (fun t => t.i) = some 0x82 ∧
    after 0xF029 (withV [(0, 0xFF)] start) (fun t => t.i) = some 0x54B := by
  decide

/-- S8. -/
theorem test_bcd :
    after 0xF033 (withV [(0, 0x9C)] (start.setI 0x300))
      (fun t => (t.readByte 0x300, t.readByte 0x301, t.readByte 0x302, t.i)) = some (1, 5, 6, 0x300) := by
  decide

/-- V-BCD-5. -/
theorem test_bcd_out_of_range :
    after 0xF033 (withV [(0, 0x7B)] (start.setI 0xFFE)) (fun t => (t.readByte 0xFFE, t.readByte 0xFFF, t.fault)) =
      some (0, 0, some (.memoryOutOfRange 0x1000)) := by
  decide

/-- V-ST-2. -/
theorem test_store_regs :
    after 0xF355 (withQuirks false true true (withV [(0, 1), (1, 2), (2, 3), (3, 4), (4, 5)] (start.setI 0x300)))
      (fun t => ((List.range 5).map (fun k => t.readByte (0x300 + k)), t.i)) = some ([1, 2, 3, 4, 0], 0x304) := by
  decide

/-- V-ST-4. -/
theorem test_store_regs_out_of_range :
    after 0xFF55 (withV [(0, 9)] (start.setI 0xFF1)) (fun t => (t.readByte 0xFF1, t.i, t.fault)) =
      some (0, 0xFF1, some (.memoryOutOfRange 0x1000)) := by
  decide

/-- V-LDM-1. -/
theorem test_load_regs :
    after 0xF365 (withBytes 0x300 [1, 2, 3, 4, 5] (start.setI 0x300))
      (fun t => (t.getV 0, t.getV 3, t.getV 4, t.i)) = some (1, 4, 0, 0x300) := by
  decide

/-- V-LDM-3. -/
theorem test_load_regs_out_of_range :
    after 0xFF65 (withV [(0, 0x77)] (start.setI 0xFF1)) (fun t => (t.getV 0, t.fault)) =
      some (0x77, some (.memoryOutOfRange 0x1000)) := by
  decide

/-! ### Display -/

/-- V-CLS-1. -/
theorem test_cls :
    after 0x00E0 (withV [(15, 1)] ((start.togglePixel 0 0).togglePixel 63 31))
      (fun t => (lit [(0, 0), (63, 31)] t, t.getV VF, t.redraw)) = some ([false, false], 1, true) := by
  decide

/-- V-DRW-2, which is S7 with one pixel lit before. -/
theorem test_drw :
    after 0xD893 (withV [(8, 1), (9, 5)] (withBytes 0x300 [0xAA, 0x55, 0xFF] ((start.setI 0x300).togglePixel 1 5)))
      (fun t => (lit [(1, 5), (2, 5), (3, 5), (2, 6), (1, 7), (2, 7), (9, 7)] t, t.getV VF, t.redraw)) =
      some ([false, false, true, true, true, true, false], 1, true) := by
  decide +kernel

/-- V-DRW-5: the start wraps, the sprite is clipped. -/
theorem test_drw_clips :
    after 0xD012 (withV [(0, 126), (1, 63)] (withBytes 0x300 [0xC0, 0xFF] (start.setI 0x300)))
      (fun t => (lit [(62, 31), (63, 31), (0, 31), (62, 0), (0, 0)] t, t.getV VF)) =
      some ([true, true, false, false, false], 0) := by
  decide +kernel

/-! ### Keypad and timers -/

/-- V-SKP-1, V-SKP-5. -/
theorem test_skp :
    after 0xE59E (withInput (fun n => { n with keys := 0x20 }) start) (fun t => t.pc) = some 0x204 ∧
    after 0xE59E { (withInput (fun n => { n with keys := 0x20 }) start) with
      params := { start.params with keyOperandMode := .register } } (fun t => t.pc) = some 0x202 := by
  decide

/-- V-SKNP-1, V-SKNP-2. -/
theorem test_sknp :
    after 0xE5A1 (withInput (fun n => { n with keys := 0x20 }) start) (fun t => t.pc) = some 0x202 ∧
    after 0xE4A1 (withInput (fun n => { n with keys := 0x20 }) start) (fun t => t.pc) = some 0x204 := by
  decide

/-- V-KEY-1. -/
theorem test_ld_key_waits :
    after 0xF30A (firing (withV [(3, 0x77)] ((start.setDt 2).setSt 1)))
      (fun t => (t.pc, t.getV 3, t.dt, t.st, t.tone)) = some (0x200, 0x77, 1, 0, false) := by
  decide

/-- V-KEY-2, by default and with the other pick. -/
theorem test_ld_key :
    after 0xF30A (withInput (fun n => { n with keys := 0x88 }) start) (fun t => (t.getV 3, t.pc)) = some (3, 0x202) ∧
    after 0xF30A (withInput (fun n => { n with keys := 0x88, keyPick := some 7 }) start) (fun t => t.getV 3) = some 7 := by
  decide

/-- V-DT-1. -/
theorem test_ld_from_dt : after 0xF107 (firing (start.setDt 0x2A)) (fun t => (t.getV 1, t.dt)) = some (0x2A, 0x29) := by decide

/-- V-DT-2, V-DT-4. -/
theorem test_ld_dt :
    after 0xF015 (firing (withV [(0, 5)] start)) (fun t => t.dt) = some 4 ∧
    after 0xF015 (firing (start.setDt 9)) (fun t => t.dt) = some 0 := by
  decide

/-- V-ST-T1, V-ST-T2. -/
theorem test_ld_st :
    after 0xF218 (firing (withV [(2, 1)] start)) (fun t => (t.st, t.tone)) = some (0, false) ∧
    after 0xF218 (withV [(2, 0x10)] start) (fun t => (t.st, t.tone)) = some (0x10, true) := by
  decide

/-- S11 and V-GATE-4: the threshold is strict, and one firing takes one off. -/
theorem test_timer_gate :
    after 0x6000 (withInput (fun n => { n with elapsed := 16000000 }) (start.setDt 5)) (fun t => (t.dt, t.acc)) =
      some (5, 16000000) ∧
    after 0x6000 (withInput (fun n => { n with elapsed := 1000000000 }) { (start.setDt 5) with acc := 10000000 })
      (fun t => (t.dt, t.acc)) = some (4, 0) := by
  decide

/-! ### Reset and the host's ROM load -/

/-- V-RST-2, V-RST-3: nothing survives, and a ROM of one byte is followed by zero. -/
theorem test_rom_load :
    loaded [0x12] (raise .stackUnderflow ((start.setDt 9).togglePixel 3 3))
      (fun t => (t.fault, t.dt, t.pixel 3 3, t.wordAtPc)) = some (none, 0, false, 0x1200) := by
  decide +kernel

/-- A word placed at reset runs as the first instruction, with free inputs: its registers and pc are as the spec says. -/
theorem test_placed_word_runs_from_reset :
    after 0x6A55 State.reset (fun t => (t.getV 10, t.pc)) = some (0x55, 0x202) := by
  decide

/-- V-LDM-4, under the premise that FONT_ROM is the default. -/
theorem test_font :
    (List.range 16).map (fun k => State.reset.readByte (0x50 + k)) =
      [0xF0, 0x90, 0x90, 0x90, 0xF0, 0x20, 0x60, 0x20, 0x20, 0x70, 0xF0, 0x10, 0xF0, 0x80, 0xF0, 0xF0] := by
  decide

/-- A machine with another FONT_ROM. -/
def otherFont : State := { start with params := { start.params with font := Vector.replicate 80 0x3C } }

/-- FONT_ROM is an argument, fixed for the machine's life: a ROM load copies it, and not the default (70 R211, R212). -/
theorem test_other_font :
    loaded [0x12] otherFont (fun t => (t.readByte 0x04F, t.readByte 0x050, t.readByte 0x09F, t.readByte 0x0A0, t.readByte 0x200)) =
      some (0, 0x3C, 0x3C, 0, 0x12) := by
  decide +kernel

/-! ### Witnesses: a concrete state and operands that meet the hypotheses of each statement -/

/-- A state about to run a word, with the registers and inputs of the tests. -/
def at200 (w : Nat) : State := (withV [(0, 1), (1, 2), (15, 3)] (start.setI 0x300)).withFetchWord 16 w

/-- Handlers answer a next state: what the statements about a next state of exec assume. -/
def runs (i : Instr) (s : State) : Bool :=
  match exec i s with
  | .next _ => true
  | .fault _ => false
  | .refused _ => false

/-- Steps answer a next state that has faulted. -/
def stepFaults (s : State) : Bool := stepped s (fun t => t.fault.isSome) == some true

/-- DecodeOfEncodeGivesInstrBack: both constructors that carry a condition. -/
theorem witness_well_formed :
    (Instr.sys 0x0E1).wellFormed = true ∧ (Instr.illegal 0xFFFF).wellFormed = true ∧ Instr.cls.wellFormed = true := by
  decide

/-- IllegalWordsAreExactlyTheUnsupported: each group of illegal words at its edge, and the words beside them. -/
theorem witness_illegal_words :
    illegalWord 0x0000 ∧ illegalWord 0x0FFF ∧ illegalWord 0x8008 ∧ illegalWord 0x8FFD ∧ illegalWord 0x800F ∧
    illegalWord 0xE09D ∧ illegalWord 0xEFA2 ∧ illegalWord 0xF066 ∧ illegalWord 0xFFFF :=
  ⟨by decide, by decide, by decide, by decide, by decide, by decide, by decide, by decide, by decide⟩

/-- The legal words beside them. -/
theorem witness_legal_words :
    ¬ illegalWord 0x00E0 ∧ ¬ illegalWord 0x00EE ∧ ¬ illegalWord 0x8007 ∧ ¬ illegalWord 0x800E ∧ ¬ illegalWord 0xE0A1 ∧
    ¬ illegalWord 0xFF65 ∧ ¬ illegalWord 0x1000 ∧ ¬ illegalWord 0xDFFF :=
  ⟨by decide, by decide, by decide, by decide, by decide, by decide, by decide, by decide⟩

/-- StepRunsDecodedInstruction: the last pc a word can be fetched at, and the reset pc. -/
theorem witness_step_runs :
    (at200 0x6A55).fault = none ∧ (at200 0x6A55).pc.toNat ≤ 0x0FFE ∧ decode (at200 0x6A55).wordAtPc = .ldByte 10 0x55 ∧
    (Instr.ldByte 10 0x55).wellFormed = true ∧ runs (.ldByte 10 0x55) (beginHandler (sample (at200 0x6A55))) = true ∧
    decode ((start.setPc 0xFFE).withFetchWord 16 0x1ABC).wordAtPc = .jp 0xABC := by
  decide

/-- FetchOutOfRangeFaults: the two cases of the address. -/
theorem witness_fetch_out_of_range :
    (start.setPc 0xFFF).fault = none ∧ 0x0FFE < (start.setPc 0xFFF).pc.toNat ∧ (start.setPc 0x1000).fault = none ∧
    0x0FFE < (start.setPc 0x1000).pc.toNat := by
  decide

/-- FaultedCoreNeverMoves, and the faulted clause of TimerGateCountsBothTimersTogether. -/
theorem witness_faulted : (raise .stackOverflow start).Faulted := by decide

/-- FaultingStepChangesNothingElse: a handler that faults, and a fetch that does. -/
theorem witness_faulting_step :
    (at200 0x00EE).fault = none ∧ stepFaults (at200 0x00EE) = true ∧ stepFaults (start.setPc 0xFFF) = true := by
  decide

/-- IllegalWordsFault: a SYS word and a word of the catch-all at pc. -/
theorem witness_illegal_at_pc :
    (at200 0x0FFF).fault = none ∧ (at200 0x0FFF).pc.toNat ≤ 0x0FFE ∧ illegalWord (at200 0x0FFF).wordAtPc ∧
    (at200 0x8128).fault = none ∧ (at200 0x8128).pc.toNat ≤ 0x0FFE ∧ illegalWord (at200 0x8128).wordAtPc := by
  decide

/-- TimerGateCountsBothTimersTogether: just above the threshold, and exactly on it. -/
theorem witness_timer_gate :
    start.fault = none ∧ start.params.timerThreshold < 16000000 + (sample (withInput (fun n => { n with elapsed := 1 }) start)).now.elapsed ∧
    ¬ start.params.timerThreshold < 16000000 + (sample start).now.elapsed := by
  decide

/-- RomLoadMeetsReachableInvariant: parameters in range, with another font and at both ends of the threshold's range. -/
theorem witness_parameters_in_range :
    otherFont.params.Valid ∧ ({ otherFont.params with timerThreshold := 17000000, stackDepth := none } : Params).Valid := by
  decide

/-- StepKeepsReachableInvariant, RomLoadMeetsReachableInvariant: reset of the tests meets the invariant, and steps. -/
theorem witness_invariant : start.Inv ∧ (stepped start (fun _ => ())).isSome = true ∧
    (loaded [0x12, 0x00] start (fun _ => ())).isSome = true := by
  refine ⟨⟨rfl, by decide, by decide, ?_, ?_, by decide⟩, by decide, by decide⟩
  · intro a h
    cases h
  · intro d _
    exact Nat.zero_le d

/-- ParametersNeverChange: a step and a ROM load that answer a next state. -/
theorem witness_parameters :
    (stepped (at200 0xD011) (fun _ => ())).isSome = true ∧ (loaded [0x12] start (fun _ => ())).isSome = true := by
  decide

/-- EachStatePieceHasItsWriters: each piece is changed by one of its writers. -/
theorem witness_writers :
    after 0xF033 (at200 0) (fun t => t.mem != ((at200 0xF033).mem)) = some true ∧
    after 0x00E0 (start.togglePixel 0 0) (fun t => t.pixel 0 0) = some false ∧
    after 0x2300 start (fun t => t.stack) = some [0x202] ∧
    after 0xA123 start (fun t => t.i) = some 0x123 ∧
    after 0xF055 (withQuirks false true true start) (fun t => t.i) = some 1 ∧
    after 0xF015 (at200 0) (fun t => t.dt) = some 1 ∧ after 0xF018 (at200 0) (fun t => t.st) = some 1 ∧
    after 0x00EE start (fun t => t.fault) = some (some .stackUnderflow) := by
  decide

/-- EachStatePieceHasItsWriters: a register, pc and REDRAW, set and cleared, are changed by one of their writers. -/
theorem witness_more_writers :
    (match exec (.loadRegs 1) (withBytes 0x300 [5, 6] (start.setI 0x300)) with
      | .next t => t.getV 1 | .fault _ => 0 | .refused _ => 0) = 6 ∧
    (match exec (.jp 0x300) start with | .next t => t.pc | .fault _ => 0 | .refused _ => 0) = 0x300 ∧
    (match exec .cls start with | .next t => t.redraw | .fault _ => false | .refused _ => false) = true ∧
    (match exec .ret (start.setRedraw true) with | .next t => t.redraw | .fault _ => true | .refused _ => true) = false := by
  decide

/-- OnlyFlagWritersTouchVf: VF changes. -/
theorem witness_vf_changes :
    after 0x8014 (at200 0) (fun t => t.getV VF != (at200 0).getV VF) = some true ∧
    after 0x6F12 (at200 0) (fun t => t.getV VF != (at200 0).getV VF) = some true := by
  decide

/-- RandomByteReachesOnlyRnd, KeysReachOnlyKeyInstructions, QuirksReachOnlyTheirInstructions: an instruction outside each
list. -/
theorem witness_noninterference :
    (∀ x nn, Instr.cls ≠ .rnd x nn) ∧ (∀ x, Instr.cls ≠ .skp x ∧ Instr.cls ≠ .sknp x ∧ Instr.cls ≠ .ldKey x) ∧
    (∀ x y, Instr.cls ≠ .shr x y ∧ Instr.cls ≠ .shl x y) ∧ (∀ nnn, Instr.cls ≠ .jpV0 nnn) ∧
    (∀ x, Instr.cls ≠ .storeRegs x ∧ Instr.cls ≠ .loadRegs x) := by
  simp

/-- ResetLeavesTheStatedValues: the addresses beside the font. -/
theorem witness_outside_font :
    State.reset.readByte 0x04F = 0 ∧ State.reset.readByte 0x050 = 0xF0 ∧ State.reset.readByte 0x09F = 0x80 ∧
    State.reset.readByte 0x0A0 = 0 := by
  decide

/-- RomLoadPlacesTheRom: the shortest ROM and the longest; RomLoadStopsOnBadLength: the lengths beside them (V-RST-4). -/
theorem witness_rom_lengths :
    1 ≤ ([0x12] : List Byte).length ∧ ([0x12] : List Byte).length ≤ 3584 ∧
    (List.replicate 3584 (0x12 : Byte)).length = 3584 ∧ (List.replicate 3585 (0x12 : Byte)).length = 3585 ∧
    ([] : List Byte).length = 0 :=
  ⟨by decide, by decide, List.length_replicate, List.length_replicate, rfl⟩

/-- The decoding clauses: a word of each group and key they speak of, the lowest and the highest. -/
theorem witness_groups :
    wordGroup 0x1000 = 1 ∧ wordGroup 0x2FFF = 2 ∧ wordGroup 0xD000 = 0xD ∧ wordGroup 0x3FFF = 3 ∧ wordGroup 0x4000 = 4 ∧ wordGroup 0x5FFF = 5 ∧ wordGroup 0x6000 = 6 ∧
    wordGroup 0x7FFF = 7 ∧ wordGroup 0x9000 = 9 ∧ wordGroup 0xAFFF = 0xA ∧ wordGroup 0xB000 = 0xB ∧
    wordGroup 0xCFFF = 0xC ∧
    (∀ k : Fin 8, wordGroup (BitVec.ofNat 16 (0x8120 + k.val)) = 8 ∧ (BitVec.ofNat 16 (0x8120 + k.val)).toNat % 16 = k.val) ∧
    (wordGroup 0x8FFE = 8 ∧ (0x8FFE : Word).toNat % 16 = 0xE) ∧
    (∀ nn ∈ [0x9E, 0xA1],
      wordGroup (BitVec.ofNat 16 (0xE000 + nn)) = 0xE ∧ (BitVec.ofNat 16 (0xE000 + nn)).toNat % 0x100 = nn) ∧
    (∀ nn ∈ [0x07, 0x0A, 0x15, 0x18, 0x1E, 0x29, 0x33, 0x55, 0x65],
      wordGroup (BitVec.ofNat 16 (0xFF00 + nn)) = 0xF ∧ (BitVec.ofNat 16 (0xFF00 + nn)).toNat % 0x100 = nn) := by
  decide

/-- CallPushesNextAddress, CallThenRetIsBalanced: the last push with room, and the first without. -/
theorem witness_call :
    (start.setStack (List.replicate 15 0x202)).params.stackDepth ≠
      some (start.setStack (List.replicate 15 0x202)).stack.length ∧
    (start.setStack (List.replicate 16 0x202)).params.stackDepth =
      some (start.setStack (List.replicate 16 0x202)).stack.length ∧
    ({ start with params := { start.params with stackDepth := none } } : State).params.stackDepth ≠ some start.stack.length := by
  decide

/-- RetPopsReturnAddress: one entry, and none. -/
theorem witness_ret : (start.setStack [0x202]).stack = 0x202 :: [] ∧ start.stack = [] := by decide

/-- AliasingWithVfFollowsTheTable: a register that is not VF, and a next state of every form it speaks of. -/
theorem witness_aliasing :
    (14 : Reg) ≠ VF ∧
    ∀ i ∈ [Instr.addReg 14 VF, .addReg VF 14, .addReg VF VF, .subReg 14 VF, .subReg VF 14, .subReg VF VF,
      .subnReg 14 VF, .subnReg VF 14, .subnReg VF VF, .shr 14 VF, .shr VF 14, .shr VF VF, .shl 14 VF, .shl VF 14,
      .shl VF VF], runs i start = true := by
  decide

/-- The X ≠ VF clause of the flag writers' results. -/
theorem witness_not_vf : (0 : Reg) ≠ VF ∧ (14 : Reg) ≠ VF := by decide

/-- LdBcdStoresDigits, StoreRegsWritesRange, LoadRegsReadsRange, StoreThenLoadRoundTrips: the last address in range. -/
theorem witness_ranges :
    Memory.wf start.mem = true ∧ (start.setI 0xFFD).i.toNat + 2 ≤ 0x0FFF ∧ (start.setI 0xFF0).i.toNat + (15 : Reg).val ≤ 0x0FFF ∧
    (start.setI 0xFFF).i.toNat + (0 : Reg).val ≤ 0x0FFF ∧ runs (.storeRegs 15) (start.setI 0xFF0) = true := by
  decide

/-- DataAccessOutOfRangeFaults: one past the last address in range, for each instruction; and I above memory. -/
theorem witness_out_of_range :
    0x0FFF < (start.setI 0xFFE).i.toNat + 3 - 1 ∧ 0x0FFF < (start.setI 0xFF1).i.toNat + ((15 : Reg).val + 1) - 1 ∧
    0x0FFF < (start.setI 0xFF2).i.toNat + (15 : Nibble).toNat - 1 ∧ 1 ≤ (15 : Nibble).toNat ∧
    0x0FFF < (start.setI 0x1000).i.toNat + ((0 : Reg).val + 1) - 1 := by
  decide

/-- NextFetchSeesStores: pc is where the store goes, with X = 1. -/
theorem witness_store_at_pc :
    Memory.wf start.mem = true ∧ (start.setI 0x200).i.toNat + (1 : Reg).val ≤ 0x0FFF ∧ 1 ≤ (1 : Reg).val ∧
    runs (.storeRegs 1) (start.setI 0x200) = true ∧ (start.setI 0x200).pc = (start.setI 0x200).i := by
  decide

/-- DrwXorsSpriteOntoScreen, DrawingTwiceRestoresScreen: the last sprite in range, and the empty one from anywhere; a
collision, and none. -/
theorem witness_drw :
    (start.setI 0xFF1).i.toNat + (15 : Nibble).toNat - 1 ≤ 0x0FFF ∧ (0 : Nibble) = 0 ∧ (0 : Reg) ≠ VF ∧ (1 : Reg) ≠ VF ∧
    (start.togglePixel 7 0).pixel 7 0 = true ∧ spriteBit 0 0 [0x01] 7 0 = true ∧ spriteBit 0 0 [0x00] 7 0 = false := by
  decide

/-- A collision, and a screen without one. -/
theorem witness_collision : collides (start.togglePixel 7 0) 0 0 [0x01] ∧ ¬ collides (start.togglePixel 7 0) 0 0 [] := by
  refine ⟨⟨7, 0, by decide, by decide⟩, ?_⟩
  rintro ⟨x, y, -, h⟩
  simp [spriteBit] at h

/-- BlitBelowScreenDrawsNothing: the first row below the screen. -/
theorem witness_below_screen : 32 ≤ 32 ∧ ¬ 32 ≤ 31 := by decide

/-- KeySkipsTestTheKey: each mode, the key down and not, and the first value that names no key. -/
theorem witness_key_skips :
    let field := (sample (withInput (fun n => { n with keys := 0x8000 }) start))
    let register := { (withV [(0, 15), (1, 16)] field) with params := { start.params with keyOperandMode := .register } }
    (field.params.keyOperandMode = .field ∧ field.now.keys.getLsbD (15 : Reg).val = true ∧
      field.now.keys.getLsbD (14 : Reg).val = false) ∧
    (register.params.keyOperandMode = .register ∧ (register.getV 0).toNat ≤ 15 ∧
      register.now.keys.getLsbD (register.getV 0).toNat = true) ∧
    15 < (register.getV 1).toNat := by
  decide

/-- LdKeyWaitsForAKey: no key, keys without a pick, a pick that is down. -/
theorem witness_ld_key :
    (sample start).now.keys = 0 ∧
    (sample (withInput (fun n => { n with keys := 0x8000 }) start)).now.keys ≠ 0 ∧
    (sample (withInput (fun n => { n with keys := 0x8000 }) start)).now.keyPick = none ∧
    (sample (withInput (fun n => { n with keys := 0x8001, keyPick := some 15 }) start)).now.keyPick = some 15 ∧
    (sample (withInput (fun n => { n with keys := 0x8001, keyPick := some 15 }) start)).now.keys.getLsbD (15 : Key).val =
      true := by
  decide

/-- SetTimerCountsInSameStep. -/
theorem witness_set_timer :
    (at200 0xF015).fault = none ∧ (at200 0xF015).pc.toNat ≤ 0x0FFE ∧ decode (at200 0xF015).wordAtPc = .ldDt 0 := by
  decide

end Sys2Proof.Tests
end

section
/-! Control transfer (spec 41): a jump and a compare write pc alone, so each handler is said once as the pc it sets. -/

namespace Sys2Proof.Machine

/-! ### Decoding by group -/

theorem decode_group1 {w : Word} (h : wordGroup w = 0x1) : decode w = .jp (wordNNN w) := by
  simp only [decode, fieldGroup_eq, h, fieldNNN_eq]

theorem decode_group3 {w : Word} (h : wordGroup w = 0x3) : decode w = .seByte (wordX w) (wordNN w) := by
  simp only [decode, fieldGroup_eq, h, fieldX_eq, fieldNN_eq]

theorem decode_group4 {w : Word} (h : wordGroup w = 0x4) : decode w = .sneByte (wordX w) (wordNN w) := by
  simp only [decode, fieldGroup_eq, h, fieldX_eq, fieldNN_eq]

theorem decode_groupB {w : Word} (h : wordGroup w = 0xB) : decode w = .jpV0 (wordNNN w) := by
  simp only [decode, fieldGroup_eq, h, fieldNNN_eq]

/-! ### Setting pc -/

/-- The frame of every handler that only jumps or skips. -/
theorem State.onlyPc_setPc (s : State) (target : Word) : s.OnlyPc (s.setPc target) :=
  ⟨rfl, s.setPc_readByte target, s.setPc_getV target⟩

theorem exec_jp (nnn : Addr12) (s : State) : exec (.jp nnn) s = .next (s.setPc (nnn.setWidth 16)) := rfl

theorem exec_seByte (x : Reg) (nn : Byte) (s : State) :
    exec (.seByte x nn) s = .next (s.setPc (if s.getV x = nn then s.pc + 2 else s.pc)) := by
  have hskip : exec (.seByte x nn) s = .next (s.skipIf (s.getV x == nn)) := rfl
  simp only [hskip, State.skipIf_eq, beq_iff_eq]

theorem exec_sneByte (x : Reg) (nn : Byte) (s : State) :
    exec (.sneByte x nn) s = .next (s.setPc (if s.getV x = nn then s.pc else s.pc + 2)) := by
  have hskip : exec (.sneByte x nn) s = .next (s.skipIf (s.getV x != nn)) := rfl
  simp only [hskip, State.skipIf_eq, bne_iff_ne, ite_not]

theorem exec_jpV0 (nnn : Addr12) (s : State) :
    exec (.jpV0 nnn) s = .next (s.setPc ((s.getV (jumpRegister nnn s)).setWidth 16 + nnn.setWidth 16)) := rfl

/-- The register BNNN adds, its number said by division (41 R104). -/
theorem jumpRegister_eq (nnn : Addr12) (s : State) :
    jumpRegister nnn s = if s.now.quirks.jumpOffset = true then 0 else Fin.ofNat 16 (nnn.toNat / 0x100) := by
  rw [jumpRegister, topRegOfAddr_eq]

/-- A 12-bit address keeps its value as a program counter. -/
theorem toNat_setWidth_addr (nnn : Addr12) : (nnn.setWidth 16).toNat = nnn.toNat :=
  BitVec.toNat_setWidth_of_le (by decide)

/-- A byte and a 12-bit address sum to at most 0x10FE, so 16 bits hold the sum and nothing wraps (41 R104). -/
theorem toNat_byte_add_addr (b : Byte) (nnn : Addr12) :
    (b.setWidth 16 + nnn.setWidth 16).toNat = b.toNat + nnn.toNat := by
  have hb : b.toNat < 256 := b.isLt
  have hn : nnn.toNat < 4096 := nnn.isLt
  have hbw : (b.setWidth 16).toNat = b.toNat := BitVec.toNat_setWidth_of_le (by decide)
  rw [BitVec.toNat_add, hbw, toNat_setWidth_addr]
  omega

/-! ### The obligations -/

/-- Settles O26: JP sets pc to NNN, widened without loss. -/
theorem jpSetsPc : Obligations.JpSetsPc := by
  refine ⟨fun _ => decode_group1, fun nnn s => ?_⟩
  exact ⟨_, exec_jp nnn s, toNat_setWidth_addr nnn, s.onlyPc_setPc _⟩

/-- Settles O30: each compare sets pc to the next instruction or to the one after it. -/
theorem byteComparesSkip : Obligations.ByteComparesSkip := by
  refine ⟨fun _ => decode_group3, fun _ => decode_group4, fun x nn s => ⟨?_, ?_⟩⟩
  · exact ⟨_, exec_seByte x nn s, rfl, s.onlyPc_setPc _⟩
  · exact ⟨_, exec_sneByte x nn s, rfl, s.onlyPc_setPc _⟩

/-- Settles O32: the 16-bit sum of the register and NNN never wraps, so it is the integer sum. -/
theorem jpV0AddsRegister : Obligations.JpV0AddsRegister := by
  refine ⟨fun _ => decode_groupB, fun nnn s => ⟨_, exec_jpV0 nnn s, ?_, s.onlyPc_setPc _⟩⟩
  rw [State.setPc_pc, toNat_byte_add_addr, jumpRegister_eq]

end Sys2Proof.Machine
end

section
/-! Loads, logic and masks (spec 42): the forms that write V[X] and no flag, so each handler is said once as the byte it
puts there. -/

namespace Sys2Proof.Machine

/-! ### Decoding by group, and group 8 by N -/

theorem decode_group6 {w : Word} (h : wordGroup w = 0x6) : decode w = .ldByte (wordX w) (wordNN w) := by
  simp only [decode, fieldGroup_eq, h, fieldX_eq, fieldNN_eq]

theorem decode_group7 {w : Word} (h : wordGroup w = 0x7) : decode w = .addByte (wordX w) (wordNN w) := by
  simp only [decode, fieldGroup_eq, h, fieldX_eq, fieldNN_eq]

theorem decode_groupC {w : Word} (h : wordGroup w = 0xC) : decode w = .rnd (wordX w) (wordNN w) := by
  simp only [decode, fieldGroup_eq, h, fieldX_eq, fieldNN_eq]

theorem decode_group8 {w : Word} (h : wordGroup w = 0x8) : decode w = decodeGroup8 w := by
  simp only [decode, fieldGroup_eq, h]

theorem decodeGroup8_n0 {w : Word} (h : w.toNat % 16 = 0x0) : decodeGroup8 w = .ldReg (wordX w) (wordY w) := by
  simp only [decodeGroup8, fieldN_toNat, h, fieldX_eq, fieldY_eq]

theorem decodeGroup8_n1 {w : Word} (h : w.toNat % 16 = 0x1) : decodeGroup8 w = .orReg (wordX w) (wordY w) := by
  simp only [decodeGroup8, fieldN_toNat, h, fieldX_eq, fieldY_eq]

theorem decodeGroup8_n2 {w : Word} (h : w.toNat % 16 = 0x2) : decodeGroup8 w = .andReg (wordX w) (wordY w) := by
  simp only [decodeGroup8, fieldN_toNat, h, fieldX_eq, fieldY_eq]

theorem decodeGroup8_n3 {w : Word} (h : w.toNat % 16 = 0x3) : decodeGroup8 w = .xorReg (wordX w) (wordY w) := by
  simp only [decodeGroup8, fieldN_toNat, h, fieldX_eq, fieldY_eq]

/-! ### Setting one register -/

/-- The frame of every handler that writes V[X] alone. -/
theorem State.onlyRegs_setV (s : State) (x : Reg) (b : Byte) : s.OnlyRegs (s.setV x b) (fun r => r = x) :=
  ⟨rfl, s.setV_readByte x b, fun _ hne => s.getV_setV_other hne b⟩

theorem exec_ldByte (x : Reg) (nn : Byte) (s : State) : exec (.ldByte x nn) s = .next (s.setV x nn) := rfl

theorem exec_addByte (x : Reg) (nn : Byte) (s : State) :
    exec (.addByte x nn) s = .next (s.setV x (s.getV x + nn)) := rfl

theorem exec_ldReg (x y : Reg) (s : State) : exec (.ldReg x y) s = .next (s.setV x (s.getV y)) := rfl

theorem exec_orReg (x y : Reg) (s : State) : exec (.orReg x y) s = .next (s.setV x (s.getV x ||| s.getV y)) := rfl

theorem exec_andReg (x y : Reg) (s : State) : exec (.andReg x y) s = .next (s.setV x (s.getV x &&& s.getV y)) := rfl

theorem exec_xorReg (x y : Reg) (s : State) : exec (.xorReg x y) s = .next (s.setV x (s.getV x ^^^ s.getV y)) := rfl

theorem exec_rnd (x : Reg) (nn : Byte) (s : State) : exec (.rnd x nn) s = .next (s.setV x (s.now.rnd &&& nn)) := rfl

/-! ### The obligations -/

/-- Settles O34: V[X] gets the 8-bit sum, which is the integer sum mod 256, and no flag is written. -/
theorem addByteWrapsWithoutFlag : Obligations.AddByteWrapsWithoutFlag := by
  refine ⟨fun _ => decode_group7, fun x nn s => ⟨_, exec_addByte x nn s, ?_, s.onlyRegs_setV x _⟩⟩
  rw [State.getV_setV_same, BitVec.toNat_add]

/-- Settles O35: each form sets V[X] to a bitwise combination, read back bit by bit. -/
theorem logicOpsWorkBitwise : Obligations.LogicOpsWorkBitwise := by
  refine ⟨fun _ hg hn => (decode_group8 hg).trans (decodeGroup8_n1 hn),
    fun _ hg hn => (decode_group8 hg).trans (decodeGroup8_n2 hn),
    fun _ hg hn => (decode_group8 hg).trans (decodeGroup8_n3 hn), fun x y s => ⟨?or, ?and, ?xor⟩⟩
  case or =>
    refine ⟨_, exec_orReg x y s, s.onlyRegs_setV x _, fun k => ?_⟩
    rw [State.getV_setV_same, BitVec.getLsbD_or]
  case and =>
    refine ⟨_, exec_andReg x y s, s.onlyRegs_setV x _, fun k => ?_⟩
    rw [State.getV_setV_same, BitVec.getLsbD_and]
  case xor =>
    refine ⟨_, exec_xorReg x y s, s.onlyRegs_setV x _, fun k => ?_⟩
    rw [State.getV_setV_same, BitVec.getLsbD_xor, Bool.bne_eq_xor]

/-- Settles O33: both loads set V[X] to their operand. -/
theorem loadsSetVx : Obligations.LoadsSetVx := by
  refine ⟨fun _ => decode_group6, fun _ hg hn => (decode_group8 hg).trans (decodeGroup8_n0 hn),
    fun x nn s => ?_, fun x y s => ?_⟩
  · exact ⟨_, exec_ldByte x nn s, s.getV_setV_same x nn, s.onlyRegs_setV x nn⟩
  · exact ⟨_, exec_ldReg x y s, s.getV_setV_same x _, s.onlyRegs_setV x _⟩

/-- Settles O41: V[X] gets the AND of the step's random byte, whichever it is, and NN. -/
theorem rndMasksRandomByte : Obligations.RndMasksRandomByte := by
  refine ⟨fun _ => decode_groupC, fun x nn s => ⟨_, exec_rnd x nn s, s.onlyRegs_setV x _, fun k => ?_⟩⟩
  rw [State.getV_setV_same, BitVec.getLsbD_and]

end Sys2Proof.Machine
end

section
/-! The index register (spec 43): three handlers give I a number that 16 bits hold, and only FX1E writes a register too, its
flag. -/

namespace Sys2Proof.Machine

/-! ### Decoding by group, and group F by NN -/

theorem decode_groupA {w : Word} (h : wordGroup w = 0xA) : decode w = .ldI (wordNNN w) := by
  simp only [decode, fieldGroup_eq, h, fieldNNN_eq]

theorem decode_groupF {w : Word} (h : wordGroup w = 0xF) : decode w = decodeGroupF w := by
  simp only [decode, fieldGroup_eq, h]

theorem decodeGroupF_nn1E {w : Word} (h : w.toNat % 0x100 = 0x1E) : decodeGroupF w = .addI (wordX w) := by
  simp only [decodeGroupF, fieldNN_toNat, h, fieldX_eq]

theorem decodeGroupF_nn29 {w : Word} (h : w.toNat % 0x100 = 0x29) : decodeGroupF w = .ldFont (wordX w) := by
  simp only [decodeGroupF, fieldNN_toNat, h, fieldX_eq]

/-! ### Setting I -/

theorem exec_ldI (nnn : Addr12) (s : State) : exec (.ldI nnn) s = .next (s.setI (nnn.setWidth 16)) := rfl

theorem exec_addI (x : Reg) (s : State) :
    exec (.addI x) s =
      .next ((s.setFlag (indexOverflow (s.i.toNat + (s.getV x).toNat))).setI
        (wrapIndex (s.i.toNat + (s.getV x).toNat))) := rfl

theorem exec_ldFont (x : Reg) (s : State) : exec (.ldFont x) s = .next (s.setI (glyphAddr (s.getV x))) := rfl

/-- The highest glyph address is 0x50 + 5 * 255, so 16 bits hold every one of them (43 R133). -/
theorem toNat_glyphAddr (b : Byte) : (glyphAddr b).toNat = 0x50 + 5 * b.toNat := by
  have hb : b.toNat < 256 := b.isLt
  rw [glyphAddr, BitVec.toNat_ofNat, Config.fontBase]
  exact Nat.mod_eq_of_lt (by omega)

/-- A sum brought back into I is at most 0x0FFF, reduced or not, so 16 bits hold it (43 R132). -/
theorem toNat_wrapIndex (sum : Nat) : (wrapIndex sum).toNat = if 0x0FFF < sum then sum % 4095 else sum := by
  rw [wrapIndex, BitVec.toNat_ofNat]
  refine Nat.mod_eq_of_lt ?_
  split <;> omega

/-- The flag of FX1E as a number (43 R132). -/
theorem toNat_getV_setFlag_indexOverflow (s : State) (sum : Nat) :
    ((s.setFlag (indexOverflow sum)).getV VF).toNat = if 0x0FFF < sum then 1 else 0 := by
  rw [State.getV_setFlag, if_pos rfl, indexOverflow]
  by_cases h : 0x0FFF < sum
  · simp [h]
  · simp [h]

/-! ### The obligations -/

/-- Settles O44: the sum is formed of the old I and V[X] before VF is written, and once reduced it fits in I. -/
theorem addIWrapsModulo4095 : Obligations.AddIWrapsModulo4095 := by
  refine ⟨fun _ hg hn => (decode_groupF hg).trans (decodeGroupF_nn1E hn), fun x s => ?_⟩
  refine ⟨_, exec_addI x s, toNat_wrapIndex _, toNat_getV_setFlag_indexOverflow s _, fun r hr => ?others, rfl, fun _ => rfl⟩
  case others => rw [State.setI_getV, State.getV_setFlag, if_neg hr]

/-- Settles O43: I gets NNN, widened without loss. -/
theorem ldISetsIndex : Obligations.LdISetsIndex := by
  refine ⟨fun _ => decode_groupA, fun nnn s => ?_⟩
  exact ⟨_, exec_ldI nnn s, toNat_setWidth_addr nnn, rfl, s.setI_readByte _⟩

/-- Settles O45: I gets the glyph address of the whole byte, which does not wrap. -/
theorem ldFontAddressesGlyph : Obligations.LdFontAddressesGlyph := by
  refine ⟨fun _ hg hn => (decode_groupF hg).trans (decodeGroupF_nn29 hn), fun x s => ?_⟩
  exact ⟨_, exec_ldFont x s, toNat_glyphAddr _, rfl, s.setI_readByte _⟩

end Sys2Proof.Machine
end

section
/-! Clearing the screen (spec 44): CLS writes the frame buffer and REDRAW alone. -/

namespace Sys2Proof.Machine

/-- With the frame buffer all dark every pixel reads as off, on the screen and beyond it. -/
theorem State.pixel_of_fb_dark {s : State} (h : s.fb = darkScreen) (x y : Nat) : s.pixel x y = false := by
  by_cases hxy : x < 64 ∧ y < 32
  · simp only [State.pixel, h, darkScreen, hxy, and_self, dite_true, Vector.getElem_replicate]
  · exact State.pixel_off hxy

theorem exec_cls (s : State) : exec .cls s = .next ((s.setFb darkScreen).setRedraw true) := rfl

/-- Settles O52: the frame buffer becomes the dark screen, whose every pixel is off. -/
theorem clsClearsScreen : Obligations.ClsClearsScreen := by
  refine ⟨by decide, fun s => ⟨_, exec_cls s, ?off, State.setRedraw_redraw _ true, rfl, ?memory⟩⟩
  case off => exact State.pixel_of_fb_dark rfl
  case memory => exact fun a => (State.setRedraw_readByte _ true a).trans (s.setFb_readByte darkScreen a)

end Sys2Proof.Machine
end

section
/-! Encoding (spec 30): the decoder and the encoder undo each other. A word is its fields packed again, so a handler's word
comes back from the fields; an instruction comes back because each of its operands is a field of its word. -/

namespace Sys2Proof.Machine

/-! ### A word is its fields, packed -/

section Fields

variable {w : Word} {g n : Nibble} {nn : Byte}

theorem extractLsb'_group_eq (hg : fieldGroup w = g.toNat) : w.extractLsb' 12 4 = g :=
  BitVec.eq_of_toNat_eq hg

theorem packA_of_fields (hg : fieldGroup w = g.toNat) : packA g (fieldNNN w) = w := by
  rw [← extractLsb'_group_eq hg, packA_fields]

theorem packXI_of_fields (hg : fieldGroup w = g.toNat) (hnn : (fieldNN w).toNat = nn.toNat) :
    packXI g (fieldX w) nn = w := by
  rw [← extractLsb'_group_eq hg, ← BitVec.eq_of_toNat_eq hnn, packXI_fields]

theorem packXYN_of_fields (hg : fieldGroup w = g.toNat) (hn : (fieldN w).toNat = n.toNat) :
    packXYN g (fieldX w) (fieldY w) n = w := by
  rw [← extractLsb'_group_eq hg, ← BitVec.eq_of_toNat_eq hn, packXYN_fields]

end Fields

theorem fieldGroup_lt (w : Word) : fieldGroup w < 16 := BitVec.isLt _

/-! ### The illegal words of groups 8, E and F -/

/-- A word selects no row exactly when its group is 8, E or F and its secondary key, said by division, is not in the map
(30 R68 to R71). -/
theorem selectsNoRow_iff (w : Word) :
    selectsNoRow w = true ↔
      (wordGroup w = 0x8 ∧ (w.toNat % 0x10 = 0xF ∨ (8 ≤ w.toNat % 0x10 ∧ w.toNat % 0x10 ≤ 0xD))) ∨
      (wordGroup w = 0xE ∧ w.toNat % 0x100 ≠ 0x9E ∧ w.toNat % 0x100 ≠ 0xA1) ∨
      (wordGroup w = 0xF ∧ w.toNat % 0x100 ∉ [0x07, 0x0A, 0x15, 0x18, 0x1E, 0x29, 0x33, 0x55, 0x65]) := by
  have hgroup : (w.extractLsb' 12 4).toNat = wordGroup w := fieldGroup_eq w
  have hn : (w.extractLsb' 0 4).toNat = w.toNat % 0x10 := fieldN_toNat w
  have hnn : (w.extractLsb' 0 8).toNat = w.toNat % 0x100 := fieldNN_toNat w
  simp only [selectsNoRow, hgroup, hn, hnn]
  split
  case h_1 h8 =>
    simp only [h8, List.mem_cons, List.not_mem_nil, decide_eq_true_eq, true_and, Nat.reduceEqDiff, false_and, or_false]
    omega
  case h_2 hE => simp [hE]
  case h_3 hF => simp [hF]
  case h_4 h8 hE hF =>
    refine iff_of_false Bool.false_ne_true ?_
    rintro (⟨hg, -⟩ | ⟨hg, -⟩ | ⟨hg, -⟩)
    exacts [h8 hg, hE hg, hF hg]

theorem decode_of_selectsNoRow {w : Word} (h : selectsNoRow w = true) : decode w = .illegal w := by
  rcases (selectsNoRow_iff w).mp h with ⟨hg, hn⟩ | ⟨hg, hnn⟩ | ⟨hg, hnn⟩
  · simp only [decode_group8 hg, decodeGroup8, fieldN_toNat]
    split
    case h_10 => rfl
    all_goals omega
  · simp only [decode, fieldGroup_eq, hg, decodeGroupE, fieldNN_toNat]
    split
    case h_3 => rfl
    all_goals omega
  · simp only [List.mem_cons, List.not_mem_nil, or_false, not_or] at hnn
    simp only [decode_groupF hg, decodeGroupF, fieldNN_toNat]
    split
    case h_10 => rfl
    all_goals omega

/-! ### From an instruction to its word and back -/

theorem decode_group0 {w : Word} (h : wordGroup w = 0x0) : decode w = decodeGroup0 w := by
  simp only [decode, fieldGroup_eq, h]

/-- Settles O2: the fields of a packed word are the operands packed, so only SYS, which leaves two addresses to CLS and RET,
and the catch-all need their well-formedness. -/
theorem decodeOfEncodeGivesInstrBack : Obligations.DecodeOfEncodeGivesInstrBack := by
  intro i hwf
  cases i with
  | cls | ret => decide
  | sys nnn =>
    have hne : nnn.toNat ≠ 0x0E0 ∧ nnn.toNat ≠ 0x0EE := by
      simpa [Instr.wellFormed, ← BitVec.toNat_inj] using hwf
    have hgroup : wordGroup (packA 0x0 nnn) = 0x0 := (fieldGroup_eq _).symm.trans (fieldGroup_packA 0x0 nnn)
    rw [encode, decode_group0 hgroup, decodeGroup0, fieldNNN_packA]
    split
    case h_1 hE0 => exact absurd hE0 hne.1
    case h_2 hEE => exact absurd hEE hne.2
    case h_3 => rfl
  | illegal w => exact decode_of_selectsNoRow hwf
  | _ => simp [encode, decode, decodeGroup8, decodeGroupE, decodeGroupF]

/-! ### From a word to its instruction and back -/

theorem encode_decodeGroup0 {w : Word} (hg : fieldGroup w = 0x0) : encode (decodeGroup0 w) = w := by
  have hw : ∀ {nnn : Addr12}, (fieldNNN w).toNat = nnn.toNat → packA 0x0 nnn = w := fun h => by
    rw [← BitVec.eq_of_toNat_eq h, packA_of_fields hg]
  unfold decodeGroup0
  split
  case h_1 hE0 => exact hw (nnn := 0x0E0) hE0
  case h_2 hEE => exact hw (nnn := 0x0EE) hEE
  case h_3 => exact packA_of_fields hg

theorem encode_decodeGroup8 {w : Word} (hg : fieldGroup w = 0x8) : encode (decodeGroup8 w) = w := by
  unfold decodeGroup8
  split
  case h_10 => rfl
  all_goals exact packXYN_of_fields hg ‹_›

theorem encode_decodeGroupE {w : Word} (hg : fieldGroup w = 0xE) : encode (decodeGroupE w) = w := by
  unfold decodeGroupE
  split
  case h_3 => rfl
  all_goals exact packXI_of_fields hg ‹_›

theorem encode_decodeGroupF {w : Word} (hg : fieldGroup w = 0xF) : encode (decodeGroupF w) = w := by
  unfold decodeGroupF
  split
  case h_10 => rfl
  all_goals exact packXI_of_fields hg ‹_›

/-- No bit of a word is lost: the encoder packs the fields that the decoder took (30 R75). -/
theorem encode_decode (w : Word) : encode (decode w) = w := by
  unfold decode
  split <;> rename_i hg
  case h_1 => exact encode_decodeGroup0 hg
  case h_9 => exact encode_decodeGroup8 hg
  case h_15 => exact encode_decodeGroupE hg
  case h_16 => exact encode_decodeGroupF hg
  case h_17 => rfl
  case h_2 | h_3 | h_11 | h_12 => exact packA_of_fields hg
  case h_4 | h_5 | h_7 | h_8 | h_13 => exact packXI_of_fields hg rfl
  case h_6 | h_10 | h_14 => exact packXYN_of_fields hg rfl

theorem wellFormed_decodeGroup0 (w : Word) : (decodeGroup0 w).wellFormed = true := by
  unfold decodeGroup0
  split
  case h_3 hE0 hEE =>
    have hne : fieldNNN w ≠ 0x0E0 ∧ fieldNNN w ≠ 0x0EE := ⟨fun h => hE0 (by rw [h]; rfl), fun h => hEE (by rw [h]; rfl)⟩
    simpa only [Instr.wellFormed, Bool.and_eq_true, bne_iff_ne] using hne
  all_goals rfl

theorem wellFormed_decodeGroup8 {w : Word} (hg : wordGroup w = 0x8) : (decodeGroup8 w).wellFormed = true := by
  have hlt := Nat.mod_lt w.toNat (show 16 > 0 by decide)
  simp only [decodeGroup8, fieldN_toNat]
  split
  case h_10 =>
    simp only [imp_false] at *
    exact (selectsNoRow_iff w).mpr (.inl ⟨hg, by omega⟩)
  all_goals rfl

theorem wellFormed_decodeGroupE {w : Word} (hg : wordGroup w = 0xE) : (decodeGroupE w).wellFormed = true := by
  simp only [decodeGroupE, fieldNN_toNat]
  split
  case h_3 h9E hA1 => exact (selectsNoRow_iff w).mpr (.inr (.inl ⟨hg, h9E, hA1⟩))
  all_goals rfl

theorem wellFormed_decodeGroupF {w : Word} (hg : wordGroup w = 0xF) : (decodeGroupF w).wellFormed = true := by
  simp only [decodeGroupF, fieldNN_toNat]
  split
  case h_10 =>
    simp only [imp_false] at *
    refine (selectsNoRow_iff w).mpr (.inr (.inr ⟨hg, ?_⟩))
    simp only [List.mem_cons, List.not_mem_nil, or_false, not_or]
    omega
  all_goals rfl

theorem wellFormed_decode (w : Word) : (decode w).wellFormed = true := by
  unfold decode
  split <;> rename_i hg
  case h_1 => exact wellFormed_decodeGroup0 w
  case h_9 => exact wellFormed_decodeGroup8 (fieldGroup_eq w ▸ hg)
  case h_15 => exact wellFormed_decodeGroupE (fieldGroup_eq w ▸ hg)
  case h_16 => exact wellFormed_decodeGroupF (fieldGroup_eq w ▸ hg)
  case h_17 =>
    have hlt := fieldGroup_lt w
    simp only [imp_false] at *
    omega
  all_goals rfl

/-- Settles O3: by the group, and in groups 0, 8, E and F by the secondary key. -/
theorem everyWordDecodesAndEncodesBack : Obligations.EveryWordDecodesAndEncodesBack :=
  fun w => ⟨wellFormed_decode w, encode_decode w⟩

/-! ### The illegal words -/

theorem decode_eq_illegal_iff (w : Word) : decode w = .illegal w ↔ selectsNoRow w = true := by
  refine ⟨fun h => ?_, decode_of_selectsNoRow⟩
  have hwf : (decode w).wellFormed = true := wellFormed_decode w
  rwa [h] at hwf

theorem decode_eq_sys_iff (w : Word) :
    (∃ nnn, decode w = .sys nnn) ↔ wordGroup w = 0x0 ∧ w ≠ 0x00E0 ∧ w ≠ 0x00EE := by
  constructor
  · rintro ⟨nnn, h⟩
    have hw : packA 0x0 nnn = w := by rw [← encode_decode w, h, encode]
    refine ⟨by rw [← fieldGroup_eq, ← hw, fieldGroup_packA]; rfl, ?_, ?_⟩
    all_goals
      rintro rfl
      exact absurd h (by simp [decode, decodeGroup0, fieldGroup, fieldNNN])
  · rintro ⟨hg, hE0, hEE⟩
    have hw : packA 0x0 (fieldNNN w) = w := packA_of_fields ((fieldGroup_eq w).trans hg)
    have hwf : (Instr.sys (fieldNNN w)).wellFormed = true := by
      simp only [Instr.wellFormed, Bool.and_eq_true, bne_iff_ne]
      exact ⟨fun h => hE0 (by rw [← hw, h]; rfl), fun h => hEE (by rw [← hw, h]; rfl)⟩
    exact ⟨fieldNNN w, by rw [← decodeOfEncodeGivesInstrBack _ hwf, encode, hw]⟩

/-- Settles O4: SYS takes the illegal words of group 0, the catch-all those of groups 8, E and F. -/
theorem illegalWordsAreExactlyTheUnsupported : Obligations.IllegalWordsAreExactlyTheUnsupported := by
  intro w
  rw [decode_eq_sys_iff, decode_eq_illegal_iff, selectsNoRow_iff]

/-- Settles O1: the decoder run on each of the twelve words. -/
theorem sampleWordsDecode : Obligations.SampleWordsDecode := by
  unfold Obligations.SampleWordsDecode
  decide

end Sys2Proof.Machine
end

section
/-! The flag writers of group 8 (spec 42): VF gets a bit and then V[X] a byte, so a handler's result is read off those two
writes; what V[X] gets is read after VF was written, which X = 15 and Y = 15 show. -/

namespace Sys2Proof.Machine

/-! ### Group 8 by N -/

theorem decodeGroup8_n4 {w : Word} (h : w.toNat % 16 = 0x4) : decodeGroup8 w = .addReg (wordX w) (wordY w) := by
  simp only [decodeGroup8, fieldN_toNat, h, fieldX_eq, fieldY_eq]

theorem decodeGroup8_n5 {w : Word} (h : w.toNat % 16 = 0x5) : decodeGroup8 w = .subReg (wordX w) (wordY w) := by
  simp only [decodeGroup8, fieldN_toNat, h, fieldX_eq, fieldY_eq]

theorem decodeGroup8_n6 {w : Word} (h : w.toNat % 16 = 0x6) : decodeGroup8 w = .shr (wordX w) (wordY w) := by
  simp only [decodeGroup8, fieldN_toNat, h, fieldX_eq, fieldY_eq]

theorem decodeGroup8_n7 {w : Word} (h : w.toNat % 16 = 0x7) : decodeGroup8 w = .subnReg (wordX w) (wordY w) := by
  simp only [decodeGroup8, fieldN_toNat, h, fieldX_eq, fieldY_eq]

theorem decodeGroup8_nE {w : Word} (h : w.toNat % 16 = 0xE) : decodeGroup8 w = .shl (wordX w) (wordY w) := by
  simp only [decodeGroup8, fieldN_toNat, h, fieldX_eq, fieldY_eq]

/-! ### Several register writes -/

theorem State.OnlyRegs.refl (s : State) (dst : Reg → Prop) : s.OnlyRegs s dst :=
  ⟨rfl, fun _ => rfl, fun _ _ => rfl⟩

/-- One more write to a register of the destinations stays within them. -/
theorem State.OnlyRegs.setV {s t : State} {dst : Reg → Prop} (h : s.OnlyRegs t dst) {r : Reg} (hr : dst r) (b : Byte) :
    s.OnlyRegs (t.setV r b) dst := by
  obtain ⟨hframe, hmem, hregs⟩ := h
  refine ⟨congrArg (fun u => u.setV r b) hframe, hmem, fun q hq => ?_⟩
  have hne : q ≠ r := fun e => hq (e ▸ hr)
  rw [t.getV_setV_other hne, hregs q hq]

/-- The frame of the flag writers of group 8. -/
theorem State.onlyRegs_flag_setV (s : State) (c : Bool) (x : Reg) (b : Byte) :
    s.OnlyRegs ((s.setFlag c).setV x b) (fun r => r = x ∨ r = VF) :=
  ((State.OnlyRegs.refl s _).setV (.inr rfl) _).setV (.inl rfl) b

/-- The frame of the shifts, which may first copy V[Y] into V[X]. -/
theorem State.onlyRegs_setV_flag_setV (s : State) (c : Bool) (x : Reg) (a b : Byte) :
    s.OnlyRegs (((s.setV x a).setFlag c).setV x b) (fun r => r = x ∨ r = VF) :=
  (((State.OnlyRegs.refl s _).setV (.inl rfl) a).setV (.inr rfl) _).setV (.inl rfl) b

/-- A register read right after a flag was written, as a number. -/
theorem toNat_getV_setFlag (s : State) (c : Bool) (q : Reg) :
    ((s.setFlag c).getV q).toNat = if q = VF then (if c = true then 1 else 0) else (s.getV q).toNat := by
  rw [State.getV_setFlag]
  split
  · split <;> rfl
  · rfl

/-- The flag outlasts the write of V[X] unless X names VF. -/
theorem toNat_getV_VF_flag_setV (s : State) (c : Bool) {x : Reg} (hx : x ≠ VF) (b : Byte) :
    (((s.setFlag c).setV x b).getV VF).toNat = if c = true then 1 else 0 := by
  rw [State.getV_setV_other _ hx.symm, toNat_getV_setFlag, if_pos rfl]

/-! ### Bytes as numbers -/

theorem toNat_sub_byte (a b : Byte) : (a - b).toNat = (a.toNat + 256 - b.toNat) % 256 := by
  have hb : b.toNat < 256 := b.isLt
  rw [BitVec.toNat_sub]
  omega

theorem toNat_shiftRight_one (b : Byte) : (b >>> 1).toNat = b.toNat / 2 := by
  rw [BitVec.toNat_ushiftRight, Nat.shiftRight_eq_div_pow, pow_one]

theorem toNat_shiftLeft_one (b : Byte) : (b <<< 1).toNat = 2 * b.toNat % 256 := by
  rw [BitVec.toNat_shiftLeft, Nat.shiftLeft_eq, pow_one, mul_comm]

/-- The bit that 8XY6 shifts out, as a number. -/
theorem toNat_lowBit (b : Byte) : (if lowBit b = true then 1 else 0) = b.toNat % 2 := by
  revert b
  decide

/-- The bit that 8XYE shifts out, as a number. -/
theorem toNat_highBit (b : Byte) : (if highBit b = true then 1 else 0) = b.toNat / 128 := by
  revert b
  decide

/-! ### Addition and subtraction -/

theorem exec_addReg (x y : Reg) (s : State) :
    exec (.addReg x y) s =
      .next ((s.setFlag (carryOf ((s.getV x).toNat + (s.getV y).toNat))).setV x
        (BitVec.ofNat 8 ((s.getV x).toNat + (s.getV y).toNat))) := rfl

theorem exec_subReg (x y : Reg) (s : State) :
    exec (.subReg x y) s =
      .next ((s.setFlag (greater (s.getV x) (s.getV y))).setV x
        ((s.setFlag (greater (s.getV x) (s.getV y))).getV x - (s.setFlag (greater (s.getV x) (s.getV y))).getV y)) := rfl

theorem exec_subnReg (x y : Reg) (s : State) :
    exec (.subnReg x y) s =
      .next ((s.setFlag (greater (s.getV y) (s.getV x))).setV x
        ((s.setFlag (greater (s.getV y) (s.getV x))).getV y - (s.setFlag (greater (s.getV y) (s.getV x))).getV x)) := rfl

/-- The flag of a subtraction, as a number. -/
theorem toNat_greater (a b : Byte) : (if greater a b = true then 1 else 0) = if b.toNat < a.toNat then 1 else 0 := by
  simp only [greater, decide_eq_true_eq]

/-- Settles O36: V[X] gets the integer sum mod 256, formed before VF is written. -/
theorem addSetsCarry : Obligations.AddSetsCarry := by
  refine ⟨fun _ hg hn => (decode_group8 hg).trans (decodeGroup8_n4 hn), fun x y s => ?_⟩
  refine ⟨_, exec_addReg x y s, ?sum, fun hx => ?carry, s.onlyRegs_flag_setV _ x _⟩
  case sum => rw [State.getV_setV_same, BitVec.toNat_ofNat]
  case carry => simp only [toNat_getV_VF_flag_setV s _ hx, carryOf, decide_eq_true_eq]

/-- Settles O37: both operands are read with the flag in VF. -/
theorem subSetsGreaterFlag : Obligations.SubSetsGreaterFlag := by
  refine ⟨fun _ hg hn => (decode_group8 hg).trans (decodeGroup8_n5 hn), fun x y s => ?_⟩
  refine ⟨_, exec_subReg x y s, ?difference, fun hx => ?flag, s.onlyRegs_flag_setV _ x _⟩
  case difference =>
    rw [State.getV_setV_same, toNat_sub_byte, toNat_getV_setFlag, toNat_getV_setFlag, toNat_greater]
  case flag => rw [toNat_getV_VF_flag_setV s _ hx, toNat_greater]

/-- Settles O38: as 8XY5, with the operands the other way round. -/
theorem subnSetsGreaterFlag : Obligations.SubnSetsGreaterFlag := by
  refine ⟨fun _ hg hn => (decode_group8 hg).trans (decodeGroup8_n7 hn), fun x y s => ?_⟩
  refine ⟨_, exec_subnReg x y s, ?difference, fun hx => ?flag, s.onlyRegs_flag_setV _ x _⟩
  case difference =>
    rw [State.getV_setV_same, toNat_sub_byte, toNat_getV_setFlag, toNat_getV_setFlag, toNat_greater]
  case flag => rw [toNat_getV_VF_flag_setV s _ hx, toNat_greater]

/-! ### Shifts -/

/-- The byte a shift works on: V[Y] under the shift-source quirk, else V[X] (42 R119, R121). -/
def shiftSource (x y : Reg) (s : State) : Byte :=
  if s.now.quirks.shiftSource = true then s.getV y else s.getV x

theorem exec_shr (x y : Reg) (s : State) :
    exec (.shr x y) s =
      .next (((s.setV x (shiftSource x y s)).setFlag (lowBit (shiftSource x y s))).setV x
        (((s.setV x (shiftSource x y s)).setFlag (lowBit (shiftSource x y s))).getV x >>> 1)) := by
  have hsource : loadShiftSource x y s = s.setV x (shiftSource x y s) := loadShiftSource_eq x y s
  simp only [exec, execShr, hsource, State.getV_setV_same]

theorem exec_shl (x y : Reg) (s : State) :
    exec (.shl x y) s =
      .next (((s.setV x (shiftSource x y s)).setFlag (highBit (shiftSource x y s))).setV x
        (((s.setV x (shiftSource x y s)).setFlag (highBit (shiftSource x y s))).getV x <<< 1)) := by
  have hsource : loadShiftSource x y s = s.setV x (shiftSource x y s) := loadShiftSource_eq x y s
  simp only [exec, execShl, hsource, State.getV_setV_same]

/-- Settles O39: the source stands in V[X] when its bit 0 goes to VF, and V[X] is read again after that. -/
theorem shrShiftsLowBitIntoVf : Obligations.ShrShiftsLowBitIntoVf := by
  refine ⟨fun _ hg hn => (decode_group8 hg).trans (decodeGroup8_n6 hn), fun x y s => ?_⟩
  refine ⟨_, exec_shr x y s, ?half, fun hx => ?flag, s.onlyRegs_setV_flag_setV _ x _ _⟩
  case half =>
    rw [State.getV_setV_same, toNat_shiftRight_one, toNat_getV_setFlag, State.getV_setV_same, toNat_lowBit]
    rfl
  case flag => exact (toNat_getV_VF_flag_setV _ _ hx _).trans (toNat_lowBit _)

/-- Settles O40: as 8XY6, with bit 7 and the doubled byte. -/
theorem shlShiftsHighBitIntoVf : Obligations.ShlShiftsHighBitIntoVf := by
  refine ⟨fun _ hg hn => (decode_group8 hg).trans (decodeGroup8_nE hn), fun x y s => ?_⟩
  refine ⟨_, exec_shl x y s, ?double, fun hx => ?flag, s.onlyRegs_setV_flag_setV _ x _ _⟩
  case double =>
    rw [State.getV_setV_same, toNat_shiftLeft_one, toNat_getV_setFlag, State.getV_setV_same, toNat_highBit]
    rfl
  case flag => exact (toNat_getV_VF_flag_setV _ _ hx _).trans (toNat_highBit _)

/-! ### The aliasing table -/

/-- What some next state of an outcome satisfies, the next state does. -/
theorem of_next_eq {o : Host.Outcome State Fault Refusal} {P : State → Prop} (h : ∃ t, o = .next t ∧ P t) {t : State}
    (ht : o = .next t) : P t := by
  obtain ⟨u, hu, hP⟩ := h
  cases hu.symm.trans ht
  exact hP

/-- Settles O42: every cell is the rule of its form (O36 to O40) at X = 15, at Y = 15 or at both. -/
theorem aliasingWithVfFollowsTheTable : Obligations.AliasingWithVfFollowsTheTable := by
  intro r s t hr
  have hvr : (s.getV r).toNat < 256 := (s.getV r).isLt
  have hvf : (s.getV VF).toNat < 256 := (s.getV VF).isLt
  refine ⟨fun h => ?add_r_vf, fun h => ?add_vf_r, fun h => ?add_vf_vf, fun h => ?sub_r_vf, fun h => ?sub_vf_r,
    fun h => ?sub_vf_vf, fun h => ?subn_r_vf, fun h => ?subn_vf_r, fun h => ?subn_vf_vf, fun h => ?shr_r_vf,
    fun h => ?shr_vf_r, fun h => ?shr_vf_vf, fun h => ?shl_r_vf, fun h => ?shl_vf_r, fun h => ?shl_vf_vf⟩
  case add_r_vf | add_vf_r | add_vf_vf =>
    obtain ⟨hx, hflag, -⟩ := of_next_eq (addSetsCarry.2 _ _ s) h
    simp only [ne_eq, hr, not_true, not_false_eq_true, true_implies] at hx hflag ⊢
    omega
  case sub_r_vf | sub_vf_r | sub_vf_vf =>
    obtain ⟨hx, hflag, -⟩ := of_next_eq (subSetsGreaterFlag.2 _ _ s) h
    simp only [ne_eq, hr, not_true, not_false_eq_true, true_implies, if_true, if_false] at hx hflag ⊢
    by_cases habove : (s.getV VF).toNat < (s.getV r).toNat <;> by_cases hbelow : (s.getV r).toNat < (s.getV VF).toNat <;>
      simp only [habove, hbelow, lt_irrefl, if_true, if_false] at hx hflag ⊢ <;> omega
  case subn_r_vf | subn_vf_r | subn_vf_vf =>
    obtain ⟨hx, hflag, -⟩ := of_next_eq (subnSetsGreaterFlag.2 _ _ s) h
    simp only [ne_eq, hr, not_true, not_false_eq_true, true_implies, if_true, if_false] at hx hflag ⊢
    by_cases habove : (s.getV VF).toNat < (s.getV r).toNat <;> by_cases hbelow : (s.getV r).toNat < (s.getV VF).toNat <;>
      simp only [habove, hbelow, lt_irrefl, if_true, if_false] at hx hflag ⊢ <;> omega
  case shr_r_vf | shr_vf_r | shr_vf_vf =>
    obtain ⟨hx, hflag, -⟩ := of_next_eq (shrShiftsLowBitIntoVf.2 _ _ s) h
    cases hq : s.now.quirks.shiftSource <;>
      simp only [hq, ne_eq, hr, not_true, not_false_eq_true, true_implies, Bool.false_eq_true, if_true, if_false]
        at hx hflag ⊢ <;> omega
  case shl_r_vf | shl_vf_r | shl_vf_vf =>
    obtain ⟨hx, hflag, -⟩ := of_next_eq (shlShiftsHighBitIntoVf.2 _ _ s) h
    cases hq : s.now.quirks.shiftSource <;>
      simp only [hq, ne_eq, hr, not_true, not_false_eq_true, true_implies, Bool.false_eq_true, if_true, if_false]
        at hx hflag ⊢ <;> omega

end Sys2Proof.Machine
end

section
/-! Calls, register compares and the keypad (spec 41, 45): CALL and RET move an address between pc and the stack; a compare
or a key test sets pc; FX0A goes back, or loads a key that is down. -/

namespace Sys2Proof.Machine

/-! ### Decoding by group, and groups E and F by NN -/

theorem decode_group2 {w : Word} (h : wordGroup w = 0x2) : decode w = .call (wordNNN w) := by
  simp only [decode, fieldGroup_eq, h, fieldNNN_eq]

theorem decode_group5 {w : Word} (h : wordGroup w = 0x5) : decode w = .seReg (wordX w) (wordY w) (wordN w) := by
  simp only [decode, fieldGroup_eq, h, fieldX_eq, fieldY_eq, fieldN_eq]

theorem decode_group9 {w : Word} (h : wordGroup w = 0x9) : decode w = .sneReg (wordX w) (wordY w) (wordN w) := by
  simp only [decode, fieldGroup_eq, h, fieldX_eq, fieldY_eq, fieldN_eq]

theorem decode_groupE {w : Word} (h : wordGroup w = 0xE) : decode w = decodeGroupE w := by
  simp only [decode, fieldGroup_eq, h]

theorem decodeGroupE_nn9E {w : Word} (h : w.toNat % 0x100 = 0x9E) : decodeGroupE w = .skp (wordX w) := by
  simp only [decodeGroupE, fieldNN_toNat, h, fieldX_eq]

theorem decodeGroupE_nnA1 {w : Word} (h : w.toNat % 0x100 = 0xA1) : decodeGroupE w = .sknp (wordX w) := by
  simp only [decodeGroupE, fieldNN_toNat, h, fieldX_eq]

theorem decodeGroupF_nn07 {w : Word} (h : w.toNat % 0x100 = 0x07) : decodeGroupF w = .ldFromDt (wordX w) := by
  simp only [decodeGroupF, fieldNN_toNat, h, fieldX_eq]

theorem decodeGroupF_nn0A {w : Word} (h : w.toNat % 0x100 = 0x0A) : decodeGroupF w = .ldKey (wordX w) := by
  simp only [decodeGroupF, fieldNN_toNat, h, fieldX_eq]

theorem decodeGroupF_nn15 {w : Word} (h : w.toNat % 0x100 = 0x15) : decodeGroupF w = .ldDt (wordX w) := by
  simp only [decodeGroupF, fieldNN_toNat, h, fieldX_eq]

theorem decodeGroupF_nn18 {w : Word} (h : w.toNat % 0x100 = 0x18) : decodeGroupF w = .ldSt (wordX w) := by
  simp only [decodeGroupF, fieldNN_toNat, h, fieldX_eq]

/-! ### Calls -/

theorem State.stackFull_iff (s : State) : s.stackFull = true ↔ s.params.stackDepth = some s.stack.length := by
  unfold State.stackFull
  cases s.params.stackDepth with
  | none => simp
  | some depth => simp [eq_comm]

theorem exec_call_room (nnn : Addr12) {s : State} (h : s.params.stackDepth ≠ some s.stack.length) :
    exec (.call nnn) s = .next ((s.setStack (s.pc :: s.stack)).setPc (nnn.setWidth 16)) :=
  congrArg Host.Outcome.next (if_neg (mt s.stackFull_iff.mp h))

theorem exec_call_full (nnn : Addr12) {s : State} (h : s.params.stackDepth = some s.stack.length) :
    exec (.call nnn) s = .next (raise .stackOverflow s) :=
  congrArg Host.Outcome.next (if_pos (s.stackFull_iff.mpr h))

theorem exec_ret_cons {s : State} {top : Word} {rest : List Word} (h : s.stack = top :: rest) :
    exec .ret s = .next ((s.setStack rest).setPc top) := by
  simp only [exec, execRet, h]

theorem exec_ret_nil {s : State} (h : s.stack = []) : exec .ret s = .next (raise .stackUnderflow s) := by
  simp only [exec, execRet, h]

/-- Settles O27: with room the address is pushed and pc set; at STACK_DEPTH the fault is raised. -/
theorem callPushesNextAddress : Obligations.CallPushesNextAddress := by
  refine ⟨fun _ => decode_group2, fun nnn s => ⟨fun hroom => ?_, fun hfull => ?_⟩⟩
  · exact ⟨_, exec_call_room nnn hroom, toNat_setWidth_addr nnn, rfl, rfl, fun _ => rfl⟩
  · exact ⟨_, exec_call_full nnn hfull, rfl, rfl, rfl, fun _ => rfl⟩

/-- Settles O28: by whether the stack has an entry. -/
theorem retPopsReturnAddress : Obligations.RetPopsReturnAddress := by
  refine ⟨by decide, fun s => ⟨fun top rest hcons => ?_, fun hnil => ?_⟩⟩
  · exact ⟨_, exec_ret_cons hcons, rfl, rfl, rfl, fun _ => rfl⟩
  · exact ⟨_, exec_ret_nil hnil, rfl, rfl, rfl, fun _ => rfl⟩

/-- Settles O29: what CALL pushed is what RET pops. -/
theorem callThenRetIsBalanced : Obligations.CallThenRetIsBalanced := by
  intro nnn s hroom
  exact ⟨_, exec_call_room nnn hroom, fun u hstack => ⟨_, exec_ret_cons hstack, rfl, rfl⟩⟩

/-! ### Compares of two registers -/

theorem exec_seReg (x y : Reg) (n : Nibble) (s : State) :
    exec (.seReg x y n) s = .next (s.setPc (if s.getV x = s.getV y then s.pc + 2 else s.pc)) := by
  have hskip : exec (.seReg x y n) s = .next (s.skipIf (s.getV x == s.getV y)) := rfl
  simp only [hskip, State.skipIf_eq, beq_iff_eq]

theorem exec_sneReg (x y : Reg) (n : Nibble) (s : State) :
    exec (.sneReg x y n) s = .next (s.setPc (if s.getV x = s.getV y then s.pc else s.pc + 2)) := by
  have hskip : exec (.sneReg x y n) s = .next (s.skipIf (s.getV x != s.getV y)) := rfl
  simp only [hskip, State.skipIf_eq, bne_iff_ne, ite_not]

/-- Settles O31: each compare sets pc by the two registers alone. -/
theorem registerComparesSkip : Obligations.RegisterComparesSkip := by
  refine ⟨fun _ => decode_group5, fun _ => decode_group9, fun x y n s => ⟨?_, ?_⟩⟩
  · exact ⟨_, exec_seReg x y n s, rfl, s.onlyPc_setPc _⟩
  · exact ⟨_, exec_sneReg x y n s, rfl, s.onlyPc_setPc _⟩

/-! ### Key tests -/

theorem exec_skp (x : Reg) (s : State) :
    exec (.skp x) s = .next (s.setPc (if keyPressed x s = true then s.pc + 2 else s.pc)) :=
  congrArg Host.Outcome.next (s.skipIf_eq (keyPressed x s))

theorem exec_sknp (x : Reg) (s : State) :
    exec (.sknp x) s = .next (s.setPc (if keyPressed x s = true then s.pc else s.pc + 2)) := by
  have hskip : exec (.sknp x) s = .next (s.skipIf (!keyPressed x s)) := rfl
  simp only [hskip, State.skipIf_eq, Bool.not_eq_true', ← Bool.not_eq_true, ite_not]

theorem keyPressed_field {s : State} (h : s.params.keyOperandMode = .field) (x : Reg) :
    keyPressed x s = s.now.keys.getLsbD x.val := by
  simp only [keyPressed, h, keyDown]

theorem keyPressed_register {s : State} (h : s.params.keyOperandMode = .register) (x : Reg) :
    keyPressed x s = (decide ((s.getV x).toNat ≤ 15) && s.now.keys.getLsbD (s.getV x).toNat) := by
  simp only [keyPressed, h, keyDown]

/-- Settles O56: in every case the key meant is down exactly when keyPressed says so. -/
theorem keySkipsTestTheKey : Obligations.KeySkipsTestTheKey := by
  refine ⟨fun _ hg hn => (decode_groupE hg).trans (decodeGroupE_nn9E hn),
    fun _ hg hn => (decode_groupE hg).trans (decodeGroupE_nnA1 hn), fun x s down hdown => ?_⟩
  have hpressed : keyPressed x s = down := by
    rcases hdown with ⟨hmode, rfl⟩ | ⟨hmode, hle, rfl⟩ | ⟨hmode, hgt, rfl⟩
    · exact keyPressed_field hmode x
    · rw [keyPressed_register hmode, decide_eq_true hle, Bool.true_and]
    · rw [keyPressed_register hmode, decide_eq_false (Nat.not_le.mpr hgt), Bool.false_and]
  subst hpressed
  exact ⟨⟨_, exec_skp x s, rfl, s.onlyPc_setPc _⟩, ⟨_, exec_sknp x s, rfl, s.onlyPc_setPc _⟩⟩

/-! ### Waiting for a key -/

theorem exec_ldKey_wait (x : Reg) {s : State} (h : s.now.keys = 0) : exec (.ldKey x) s = .next (s.setPc (s.pc - 2)) :=
  congrArg Host.Outcome.next (if_pos h)

theorem exec_ldKey_load (x : Reg) {s : State} (h : s.now.keys ≠ 0) :
    exec (.ldKey x) s = .next (s.setV x (BitVec.ofNat 8 (keySelect s.now).val)) :=
  congrArg Host.Outcome.next (if_neg h)

theorem exists_key_of_ne_zero {keys : BitVec 16} (h : keys ≠ 0) : ∃ k : Key, keys.getLsbD k.val = true := by
  by_contra hnone
  refine h (BitVec.eq_of_getLsbD_eq fun k hk => ?_)
  have hoff : keys.getLsbD k ≠ true := fun hkey => hnone ⟨⟨k, hk⟩, hkey⟩
  simpa using hoff

/-- With some key down, the lowest key is down and no key below it is (45 R172). -/
theorem lowestKey_spec {keys : BitVec 16} (h : keys ≠ 0) :
    keys.getLsbD (lowestKey keys).val = true ∧ ∀ k, k < (lowestKey keys).val → keys.getLsbD k = false := by
  obtain ⟨k, hk⟩ := exists_key_of_ne_zero h
  have hsome : ((List.finRange 16).find? fun k => keys.getLsbD k.val).isSome = true :=
    List.find?_isSome.mpr ⟨k, List.mem_finRange k, hk⟩
  obtain ⟨low, hfind⟩ := Option.isSome_iff_exists.mp hsome
  have hlow : lowestKey keys = low := by rw [lowestKey, hfind, Option.getD_some]
  obtain ⟨hdown, n, hn, hget, hbelow⟩ := List.find?_eq_some_iff_getElem.mp hfind
  have hval : low.val = n := by rw [← hget, List.getElem_finRange, Fin.val_cast]
  refine ⟨hlow ▸ hdown, fun k hk => ?_⟩
  have hoff := hbelow k (by rwa [hlow, hval] at hk)
  simpa using hoff

/-- The key FX0A reports is down (45 R172). -/
theorem keySelect_down {input : StepInput} (h : input.keys ≠ 0) : input.keys.getLsbD (keySelect input).val = true := by
  unfold keySelect
  split
  · split
    · assumption
    · exact (lowestKey_spec h).1
  · exact (lowestKey_spec h).1

theorem keySelect_of_no_pick {input : StepInput} (h : input.keyPick = none) : keySelect input = lowestKey input.keys := by
  simp only [keySelect, h]

theorem keySelect_of_pick {input : StepInput} {k : Key} (h : input.keyPick = some k)
    (hdown : input.keys.getLsbD k.val = true) : keySelect input = k := by
  simp only [keySelect, h, hdown, if_true]

/-- A key's code fits in a byte. -/
theorem toNat_keyCode (k : Key) : (BitVec.ofNat 8 k.val).toNat = k.val := by
  rw [BitVec.toNat_ofNat]
  exact Nat.mod_eq_of_lt (by omega)

/-- Settles O57: the code loaded is that of the selected key, which is down. -/
theorem ldKeyWaitsForAKey : Obligations.LdKeyWaitsForAKey := by
  refine ⟨fun _ hg hn => (decode_groupF hg).trans (decodeGroupF_nn0A hn), fun x s => ⟨fun hnone => ?_, fun hkeys => ?_⟩⟩
  · exact ⟨_, exec_ldKey_wait x hnone, rfl, s.onlyPc_setPc _⟩
  · refine ⟨_, exec_ldKey_load x hkeys, s.onlyRegs_setV x _, ?_⟩
    rw [State.getV_setV_same, toNat_keyCode]
    refine ⟨by omega, keySelect_down hkeys, fun hpick => ?lowest, fun k hpick hdown => ?picked⟩
    case lowest => exact keySelect_of_no_pick hpick ▸ (lowestKey_spec hkeys).2
    case picked => rw [keySelect_of_pick hpick hdown]

/-! ### Timer moves -/

theorem exec_ldFromDt (x : Reg) (s : State) : exec (.ldFromDt x) s = .next (s.setV x s.dt) := rfl

theorem exec_ldDt (x : Reg) (s : State) : exec (.ldDt x) s = .next (s.setDt (s.getV x)) := rfl

theorem exec_ldSt (x : Reg) (s : State) : exec (.ldSt x) s = .next (s.setSt (s.getV x)) := rfl

/-- Settles O58: each form is one write. -/
theorem timerMovesCopyOneByte : Obligations.TimerMovesCopyOneByte := by
  refine ⟨fun _ hg hn => (decode_groupF hg).trans (decodeGroupF_nn07 hn),
    fun _ hg hn => (decode_groupF hg).trans (decodeGroupF_nn15 hn),
    fun _ hg hn => (decode_groupF hg).trans (decodeGroupF_nn18 hn), fun x s => ⟨?_, ?_, ?_⟩⟩
  · exact ⟨_, exec_ldFromDt x s, s.getV_setV_same x _, s.onlyRegs_setV x _⟩
  · exact ⟨_, exec_ldDt x s, rfl, rfl, s.setDt_readByte _⟩
  · exact ⟨_, exec_ldSt x s, rfl, rfl, s.setSt_readByte _⟩

end Sys2Proof.Machine
end

section
/-! The data instructions over memory (spec 43): each checks its whole range first, then stores the digits of V[X], or stores
or loads V[0] to V[X], or raises the range fault alone. -/

namespace Sys2Proof.Machine

theorem decodeGroupF_nn33 {w : Word} (h : w.toNat % 0x100 = 0x33) : decodeGroupF w = .ldBcd (wordX w) := by
  simp only [decodeGroupF, fieldNN_toNat, h, fieldX_eq]

theorem decodeGroupF_nn55 {w : Word} (h : w.toNat % 0x100 = 0x55) : decodeGroupF w = .storeRegs (wordX w) := by
  simp only [decodeGroupF, fieldNN_toNat, h, fieldX_eq]

theorem decodeGroupF_nn65 {w : Word} (h : w.toNat % 0x100 = 0x65) : decodeGroupF w = .loadRegs (wordX w) := by
  simp only [decodeGroupF, fieldNN_toNat, h, fieldX_eq]

/-! ### The range check -/

theorem withRange_inRange {len : Nat} {s : State} (h : len = 0 ∨ s.i.toNat + len ≤ 0x1000) (effect : State → State) :
    withRange len effect s = effect s := by
  rw [withRange_eq, if_pos h]

theorem withRange_outOfRange {len : Nat} {s : State} (h : ¬ (len = 0 ∨ s.i.toNat + len ≤ 0x1000))
    (effect : State → State) :
    withRange len effect s = raise (.memoryOutOfRange (BitVec.ofNat 17 (max s.i.toNat 0x1000))) s := by
  rw [withRange_eq, if_neg h]

/-- The lowest address from I on that does not exist (20 R49). -/
theorem ofNat_max_index (w : Word) :
    BitVec.ofNat 17 (max w.toNat 0x1000) = if w.toNat < 0x1000 then 0x1000 else w.setWidth 17 := by
  split
  · rw [max_eq_right (by omega)]
    rfl
  · rw [max_eq_left (by omega), BitVec.ofNat_toNat]

/-! ### Storing the digits -/

/-- The three stores of FX33. -/
def storeDigits (x : Reg) (s : State) : State :=
  ((s.writeByte s.i.toNat (hundreds (s.getV x))).writeByte (s.i.toNat + 1) (tens (s.getV x))).writeByte
    (s.i.toNat + 2) (units (s.getV x))

theorem exec_ldBcd (x : Reg) (s : State) : exec (.ldBcd x) s = .next (withRange 3 (storeDigits x) s) := rfl

theorem storeDigits_frame (x : Reg) (s : State) : storeDigits x s = s.setMem (storeDigits x s).mem := rfl

section InRange

variable {x : Reg} {s : State} (hwf : Memory.wf s.mem = true) (hrange : s.i.toNat + 2 ≤ 0x0FFF)
include hwf hrange

theorem storeDigits_wf : Memory.wf (storeDigits x s).mem = true :=
  Memory.wf_write (Memory.wf_write (Memory.wf_write hwf (show s.i.toNat < 0x1000 by omega) _)
    (show s.i.toNat + 1 < 0x1000 by omega) _) (show s.i.toNat + 2 < 0x1000 by omega) _

theorem storeDigits_readByte (a : Nat) :
    (storeDigits x s).readByte a =
      if a = s.i.toNat + 2 then units (s.getV x) else if a = s.i.toNat + 1 then tens (s.getV x)
      else if a = s.i.toNat then hundreds (s.getV x) else s.readByte a := by
  have hwf₁ : Memory.wf (s.writeByte s.i.toNat (hundreds (s.getV x))).mem = true :=
    Memory.wf_write hwf (show s.i.toNat < 0x1000 by omega) _
  have hwf₂ : Memory.wf ((s.writeByte s.i.toNat (hundreds (s.getV x))).writeByte (s.i.toNat + 1)
      (tens (s.getV x))).mem = true := Memory.wf_write hwf₁ (show s.i.toNat + 1 < 0x1000 by omega) _
  rw [storeDigits, State.readByte_writeByte hwf₂, State.readByte_writeByte hwf₁, State.readByte_writeByte hwf]

end InRange

theorem toNat_hundreds (b : Byte) : (hundreds b).toNat = b.toNat / 100 := by
  rw [hundreds, BitVec.toNat_ofNat]
  omega

theorem toNat_tens (b : Byte) : (tens b).toNat = b.toNat / 10 % 10 := by
  rw [tens, BitVec.toNat_ofNat]
  omega

theorem toNat_units (b : Byte) : (units b).toNat = b.toNat % 10 := by
  rw [units, BitVec.toNat_ofNat]
  omega

/-- Settles O46: the bytes stored are the quotients and remainders of V[X], and they are its digits. -/
theorem ldBcdStoresDigits : Obligations.LdBcdStoresDigits := by
  refine ⟨fun _ hg hn => (decode_groupF hg).trans (decodeGroupF_nn33 hn), fun x s hwf hrange => ?_⟩
  have hexec : exec (.ldBcd x) s = .next (storeDigits x s) := by
    rw [exec_ldBcd, withRange_inRange (.inr (by omega))]
  have hread := storeDigits_readByte (x := x) hwf hrange
  have h₀ : (storeDigits x s).readByte s.i.toNat = hundreds (s.getV x) := by simp [hread]
  have h₁ : (storeDigits x s).readByte (s.i.toNat + 1) = tens (s.getV x) := by simp [hread]
  have h₂ : (storeDigits x s).readByte (s.i.toNat + 2) = units (s.getV x) := by simp [hread]
  have hv : (s.getV x).toNat < 256 := (s.getV x).isLt
  refine ⟨_, hexec, ?_⟩
  rw [h₀, h₁, h₂, toNat_hundreds, toNat_tens, toNat_units]
  refine ⟨by omega, by omega, by omega, by omega, fun a ha => ?others, storeDigits_frame x s⟩
  case others => rw [hread, if_neg (by omega), if_neg (by omega), if_neg (by omega)]

/-! ### Register ranges -/

/-- I after FX55 and FX65 in range (43 R138). -/
def bumpedIndex (x : Reg) (s : State) : Word :=
  if s.now.quirks.storeLoadIncrement = true then s.i + BitVec.ofNat 16 (x.val + 1) else s.i

/-- In range the advance of I does not wrap: it ends at 0x1000 at the most. -/
theorem toNat_bumpedIndex {x : Reg} {s : State} (hrange : s.i.toNat + x.val ≤ 0x0FFF) :
    (bumpedIndex x s).toNat =
      if s.now.quirks.storeLoadIncrement = true then s.i.toNat + x.val + 1 else s.i.toNat := by
  unfold bumpedIndex
  split
  · rw [BitVec.toNat_add, BitVec.toNat_ofNat]
    omega
  · rfl

theorem bumpIndex_storeRange (x : Reg) (base count : Nat) (s : State) :
    bumpIndex x (storeRange base count s) = (storeRange base count s).setI (bumpedIndex x s) := by
  rw [bumpIndex_eq, storeRange_frame]
  rfl

theorem bumpIndex_loadRange (x : Reg) (base count : Nat) (s : State) :
    bumpIndex x (loadRange base count s) = (loadRange base count s).setI (bumpedIndex x s) := by
  rw [bumpIndex_eq, loadRange_frame]
  rfl

theorem exec_storeRegs (x : Reg) (s : State) :
    exec (.storeRegs x) s =
      .next (withRange (x.val + 1) (fun t => bumpIndex x (storeRange t.i.toNat (x.val + 1) t)) s) := rfl

theorem exec_loadRegs (x : Reg) (s : State) :
    exec (.loadRegs x) s =
      .next (withRange (x.val + 1) (fun t => bumpIndex x (loadRange t.i.toNat (x.val + 1) t)) s) := rfl

theorem exec_storeRegs_inRange {x : Reg} {s : State} (hrange : s.i.toNat + x.val ≤ 0x0FFF) :
    exec (.storeRegs x) s = .next ((storeRange s.i.toNat (x.val + 1) s).setI (bumpedIndex x s)) := by
  rw [exec_storeRegs, withRange_inRange (.inr (by omega)), bumpIndex_storeRange]

theorem exec_loadRegs_inRange {x : Reg} {s : State} (hrange : s.i.toNat + x.val ≤ 0x0FFF) :
    exec (.loadRegs x) s = .next ((loadRange s.i.toNat (x.val + 1) s).setI (bumpedIndex x s)) := by
  rw [exec_loadRegs, withRange_inRange (.inr (by omega)), bumpIndex_loadRange]

/-- Settles O47: what the range of stores leaves at each address, with I moved after it. -/
theorem storeRegsWritesRange : Obligations.StoreRegsWritesRange := by
  refine ⟨fun _ hg hn => (decode_groupF hg).trans (decodeGroupF_nn55 hn), fun x s hwf hrange => ?_⟩
  have hread := storeRange_readByte (s := s) hwf (show s.i.toNat + (x.val + 1) ≤ 0x1000 by omega)
  refine ⟨_, exec_storeRegs_inRange hrange, fun k hk => ?stored, fun a ha => ?others, toNat_bumpedIndex hrange, ?frame⟩
  case stored =>
    have hk' : k.val ≤ x.val := hk
    rw [State.setI_readByte, hread, if_pos (by omega), Nat.add_sub_cancel_left, Fin.ofNat_val_eq_self]
  case others => rw [State.setI_readByte, hread, if_neg (by omega)]
  case frame => exact congrArg (fun t => t.setI (bumpedIndex x s)) (storeRange_frame _ _ s)

/-- Settles O48: what the range of loads leaves in each register, with I moved after it. -/
theorem loadRegsReadsRange : Obligations.LoadRegsReadsRange := by
  refine ⟨fun _ hg hn => (decode_groupF hg).trans (decodeGroupF_nn65 hn), fun x s hrange => ?_⟩
  have hregs := loadRange_getV (base := s.i.toNat) (show x.val + 1 ≤ 16 by omega) s
  refine ⟨_, exec_loadRegs_inRange hrange, fun k hk => ?loaded, fun k hk => ?above, toNat_bumpedIndex hrange, ?frame,
    loadRange_readByte _ _ s⟩
  case loaded => rw [State.setI_getV, hregs, if_pos (Nat.lt_succ_of_le hk)]
  case above => rw [State.setI_getV, hregs, if_neg (Nat.not_lt.mpr hk)]
  case frame => exact congrArg (fun t => t.setI (bumpedIndex x s)) (loadRange_frame _ _ s)

/-- Settles O50: the bytes that FX55 left at the range are what FX65 reads there. -/
theorem storeThenLoadRoundTrips : Obligations.StoreThenLoadRoundTrips := by
  intro x s t u hwf hrange hstore hmem hi
  obtain ⟨hstored, -⟩ := of_next_eq (storeRegsWritesRange.2 x s hwf hrange) hstore
  obtain ⟨r, hload, hloaded, -⟩ := loadRegsReadsRange.2 x u (by rwa [hi])
  refine ⟨r, hload, fun k hk => ?_⟩
  calc r.getV k = u.readByte (s.i.toNat + k.val) := by rw [hloaded k hk, hi]
    _ = t.readByte (s.i.toNat + k.val) := congrArg (fun m => Memory.read m _) hmem
    _ = s.getV k := hstored k hk

theorem toNat_wordOfBytes (hi lo : Byte) : (wordOfBytes hi lo).toNat = hi.toNat * 256 + lo.toNat := by
  have h₁ : hi.toNat < 256 := hi.isLt
  have h₂ : lo.toNat < 256 := lo.isLt
  rw [wordOfBytes_eq, BitVec.toNat_ofNat]
  omega

/-- Settles O51: the two bytes fetched are the first two that FX55 stored. -/
theorem nextFetchSeesStores : Obligations.NextFetchSeesStores := by
  intro x s t hwf hrange hx hstore hpc
  obtain ⟨hstored, -⟩ := of_next_eq (storeRegsWritesRange.2 x s hwf hrange) hstore
  have h₀ : t.readByte s.i.toNat = s.getV 0 := hstored 0 (Fin.zero_le x)
  have h₁ : t.readByte (s.i.toNat + 1) = s.getV 1 := hstored 1 hx
  refine ⟨wordOfBytes (s.getV 0) (s.getV 1), ?_, toNat_wordOfBytes _ _⟩
  rw [fetch_eq, hpc, if_pos (by omega), h₀, h₁]

/-! ### Out of range -/

/-- Settles O49: each of the four checks the len bytes from I before its effect. -/
theorem dataAccessOutOfRangeFaults : Obligations.DataAccessOutOfRangeFaults := by
  intro i len s hform hrange
  have hexec : ∃ effect, exec i s = .next (withRange len effect s) := by
    rcases hform with ⟨x, rfl, rfl⟩ | ⟨x, rfl | rfl, rfl⟩ | ⟨x, y, n, rfl, -, rfl⟩
    · exact ⟨_, exec_ldBcd x s⟩
    · exact ⟨_, exec_storeRegs x s⟩
    · exact ⟨_, exec_loadRegs x s⟩
    · exact ⟨_, rfl⟩
  have hlen : 1 ≤ len := by
    rcases hform with ⟨_, _, rfl⟩ | ⟨_, _, rfl⟩ | ⟨_, _, _, _, hn, rfl⟩ <;> omega
  obtain ⟨effect, hexec⟩ := hexec
  rw [withRange_outOfRange (by omega), ofNat_max_index] at hexec
  exact ⟨_, hexec, rfl, rfl, rfl, fun _ => rfl⟩

end Sys2Proof.Machine
end

section
/-! The sprite instruction (spec 44): DXYN clears VF and runs the blit engine, whose pixels and collision are said once in
the model's own laws. -/

namespace Sys2Proof.Machine

theorem decode_groupD {w : Word} (h : wordGroup w = 0xD) : decode w = .drw (wordX w) (wordY w) (wordN w) := by
  simp only [decode, fieldGroup_eq, h, fieldX_eq, fieldY_eq, fieldN_eq]

/-! ### Drawing -/

/-- What DXYN does in range. -/
def drawSprite (x y : Reg) (n : Nibble) (s : State) : State :=
  (blit (startColumn x s) (startRow y s) (spriteRows s n.toNat) (s.setFlag false)).setRedraw true

theorem exec_drw (x y : Reg) (n : Nibble) (s : State) :
    exec (.drw x y n) s = .next (withRange n.toNat (drawSprite x y n) s) := rfl

theorem exec_drw_inRange (x y : Reg) {n : Nibble} {s : State} (h : n = 0 ∨ s.i.toNat + n.toNat - 1 ≤ 0x0FFF) :
    exec (.drw x y n) s = .next (drawSprite x y n s) := by
  have hrange : n.toNat = 0 ∨ s.i.toNat + n.toNat ≤ 0x1000 := by
    rcases h with rfl | h
    · exact .inl rfl
    · omega
  rw [exec_drw, withRange_inRange hrange]

theorem drawsOnly_setFlag (s : State) (c : Bool) : DrawsOnly s (s.setFlag c) :=
  ⟨rfl, fun r hr => by rw [State.getV_setFlag, if_neg hr]⟩

section Sprite

variable (x y : Reg) (n : Nibble) (s : State)

theorem drawSprite_draws : DrawsOnly s ((drawSprite x y n s).setRedraw s.redraw) := by
  have hblit : DrawsOnly s (blit (startColumn x s) (startRow y s) (spriteRows s n.toNat) (s.setFlag false)) :=
    (drawsOnly_setFlag s false).trans (blit_draws _ _ _ _)
  obtain ⟨hframe, hregs⟩ := hblit
  exact ⟨congrArg (fun t => t.setRedraw s.redraw) hframe, hregs⟩

/-- DXYN changes the frame buffer, VF and REDRAW alone. -/
theorem drawSprite_frame :
    drawSprite x y n s = { s with fb := (drawSprite x y n s).fb, v := (drawSprite x y n s).v, redraw := true } :=
  congrArg (fun t => t.setRedraw true) (drawSprite_draws x y n s).1

theorem drawSprite_getV {r : Reg} (hr : r ≠ VF) : (drawSprite x y n s).getV r = s.getV r :=
  (drawSprite_draws x y n s).2 r hr

theorem drawSprite_readByte (a : Nat) : (drawSprite x y n s).readByte a = s.readByte a := by
  rw [drawSprite_frame]
  rfl

/-- A pixel of the screen becomes itself XOR the sprite's bit over it. -/
theorem drawSprite_pixel {px py : Nat} (hx : px < 64) (hy : py < 32) :
    (drawSprite x y n s).pixel px py =
      (s.pixel px py != spriteBit (startColumn x s) (startRow y s) (spriteRows s n.toNat) px py) := by
  rw [drawSprite, State.setRedraw_pixel, blit_pixel, State.setFlag_pixel]
  cases spriteBit (startColumn x s) (startRow y s) (spriteRows s n.toNat) px py <;> simp [hx, hy]

theorem drawSprite_vf :
    (collides s (startColumn x s) (startRow y s) (spriteRows s n.toNat) → (drawSprite x y n s).getV VF = 1) ∧
    (¬ collides s (startColumn x s) (startRow y s) (spriteRows s n.toNat) → (drawSprite x y n s).getV VF = 0) := by
  obtain ⟨hhit, hmiss⟩ := blit_vf (startColumn x s) (startRow y s) (spriteRows s n.toNat) (s.setFlag false)
  exact ⟨hhit, fun h => (hmiss h).trans (by rw [State.getV_setFlag]; rfl)⟩

end Sprite

/-- Settles O53: the pixels, the collision and the frame of the drawing. -/
theorem drwXorsSpriteOntoScreen : Obligations.DrwXorsSpriteOntoScreen := by
  refine ⟨fun _ => decode_groupD, fun x y n s hrange => ?_⟩
  obtain ⟨hhit, hmiss⟩ := drawSprite_vf x y n s
  exact ⟨_, exec_drw_inRange x y hrange, fun _ _ => drawSprite_pixel x y n s, hhit, hmiss,
    fun _ => drawSprite_getV x y n s, rfl, drawSprite_frame x y n s, drawSprite_readByte x y n s⟩

/-! ### Drawing twice -/

/-- Where a second draw goes and what it draws, after a first with coordinates not taken from VF. -/
theorem drawSprite_operands {x y : Reg} (hx : x ≠ VF) (hy : y ≠ VF) (n : Nibble) (s : State) :
    startColumn x (drawSprite x y n s) = startColumn x s ∧ startRow y (drawSprite x y n s) = startRow y s ∧
      spriteRows (drawSprite x y n s) n.toNat = spriteRows s n.toNat := by
  refine ⟨?_, ?_, ?_⟩
  · rw [startColumn, drawSprite_getV x y n s hx, startColumn]
  · rw [startRow, drawSprite_getV x y n s hy, startRow]
  · have hi : (drawSprite x y n s).i = s.i := by rw [drawSprite_frame]
    simp only [spriteRows, hi, drawSprite_readByte]

/-- Settles O54: the second draw has the same sprite bits at the same place, and XOR with them twice is nothing. -/
theorem drawingTwiceRestoresScreen : Obligations.DrawingTwiceRestoresScreen := by
  intro x y n s hx hy hrange
  obtain ⟨hcol, hrow, hrows⟩ := drawSprite_operands hx hy n s
  have hi : (drawSprite x y n s).i = s.i := by rw [drawSprite_frame]
  refine ⟨_, _, exec_drw_inRange x y hrange, exec_drw_inRange x y (by rwa [hi]), fun px py => ?pixels, ?collision⟩
  case pixels =>
    by_cases hscreen : px < 64 ∧ py < 32
    · rw [drawSprite_pixel _ _ _ _ hscreen.1 hscreen.2, hcol, hrow, hrows, drawSprite_pixel _ _ _ _ hscreen.1 hscreen.2,
        Bool.bne_assoc, bne_self_eq_false, Bool.bne_false]
    · rw [State.pixel_off hscreen, State.pixel_off hscreen]
  case collision =>
    have hcollides : collides (drawSprite x y n s) (startColumn x s) (startRow y s) (spriteRows s n.toNat) ↔
        ∃ px py, s.pixel px py = false ∧ (drawSprite x y n s).pixel px py = true := by
      refine exists_congr fun px => exists_congr fun py => ?_
      by_cases hscreen : px < 64 ∧ py < 32
      · rw [drawSprite_pixel _ _ _ _ hscreen.1 hscreen.2]
        cases s.pixel px py <;> simp
      · simp [State.pixel_off hscreen]
    obtain ⟨hhit, hmiss⟩ := drawSprite_vf x y n (drawSprite x y n s)
    rw [hcol, hrow, hrows, hcollides] at hhit hmiss
    refine ⟨fun hone => ?_, hhit⟩
    by_contra hnone
    exact absurd (hone.symm.trans (hmiss hnone)) (by decide)

/-! ### Below the screen -/

theorem plot_below (x : Nat) {y : Nat} (hy : 32 ≤ y) (s : State) : plot x y s = s :=
  if_neg fun h => by omega

theorem blitRow_below (x0 : Nat) {y : Nat} (hy : 32 ≤ y) (row : Byte) (count : Nat) (s : State) :
    blitRow x0 y row count s = s := by
  induction count with
  | zero => rfl
  | succ k ih => rw [blitRow, ih, plot_below _ hy, ite_self]

/-- Settles O55: row by row, every plotted bit is clipped. -/
theorem blitBelowScreenDrawsNothing : Obligations.BlitBelowScreenDrawsNothing := by
  intro x0 y0 rows s hy
  induction rows generalizing y0 with
  | nil => rfl
  | cons row rest ih => rw [blit, blitRow_below x0 hy, ih (y0 + 1) (by omega)]

end Sys2Proof.Machine
end

section
/-! What a handler can do, said once (spec 10 R32): exec answers a next state, and that state is one of sixteen changes of the
state before. The rules about every instruction are read off these changes. -/

namespace Sys2Proof.Machine

/-! ### The forms, by what they may write -/

/-- The forms that can fault (60 R181 to R184). -/
def CanFault (i : Instr) : Prop :=
  i = .ret ∨ (∃ nnn, i = .sys nnn ∨ i = .call nnn) ∨ (∃ w, i = .illegal w) ∨
    (∃ x, i = .ldBcd x ∨ i = .storeRegs x ∨ i = .loadRegs x) ∨ ∃ x y n, i = .drw x y n

/-- The six skips (40 R91). -/
def Skips (i : Instr) : Prop :=
  (∃ x nn, i = .seByte x nn ∨ i = .sneByte x nn) ∨ (∃ x y n, i = .seReg x y n ∨ i = .sneReg x y n) ∨
    ∃ x, i = .skp x ∨ i = .sknp x

/-- The forms that may write V[r]: those that name it as destination, FX65 with X at or above it, and for VF the flag
writers (10 R15, R32). -/
def WritesReg (r : Reg) (i : Instr) : Prop :=
  (∃ nn, i = .ldByte r nn ∨ i = .addByte r nn ∨ i = .rnd r nn) ∨
  (∃ y, i = .ldReg r y ∨ i = .orReg r y ∨ i = .andReg r y ∨ i = .xorReg r y ∨ i = .addReg r y ∨ i = .subReg r y ∨
    i = .shr r y ∨ i = .subnReg r y ∨ i = .shl r y) ∨
  i = .ldFromDt r ∨ i = .ldKey r ∨ (∃ x, r ≤ x ∧ i = .loadRegs x) ∨
  (r = VF ∧
    ((∃ x y, i = .addReg x y ∨ i = .subReg x y ∨ i = .shr x y ∨ i = .subnReg x y ∨ i = .shl x y) ∨
      (∃ x, i = .addI x) ∨ ∃ x y n, i = .drw x y n))

/-- The register file v differs from the state's in registers of dst only. -/
def State.RegsWithin (s : State) (v : Vector Byte 16) (dst : Reg → Prop) : Prop :=
  ∀ r, State.getV { s with v := v } r ≠ s.getV r → dst r

/-! ### The changes -/

/-- What the handler of an instruction can make of a state. -/
inductive Effect (s : State) : Instr → State → Prop
  /-- Any of the four faults (60 R189). -/
  | fault {i : Instr} (f : FaultRecord) (hi : CanFault i) : Effect s i (raise f s)
  /-- A jump, at most to 0xFF + 0xFFF (41 R98, R104). -/
  | jump {i : Instr} (target : Word) (hi : ∃ nnn, i = .jp nnn ∨ i = .jpV0 nnn) (hle : target.toNat ≤ 0x10FE) :
      Effect s i (s.setPc target)
  /-- A skip, taken or not (40 R91). -/
  | skip {i : Instr} (target : Word) (hi : Skips i) (htarget : target = s.pc ∨ target = s.pc + 2) :
      Effect s i (s.setPc target)
  /-- FX0A with no key down goes back to itself (45 R163). -/
  | wait (x : Reg) : Effect s (.ldKey x) (s.setPc (s.pc - 2))
  /-- RET with an entry on the stack (41 R97). -/
  | ret (top : Word) (rest : List Word) (hstack : s.stack = top :: rest) :
      Effect s .ret ((s.setStack rest).setPc top)
  /-- CALL with room on the stack (41 R99). -/
  | call (nnn : Addr12) (hroom : s.params.stackDepth ≠ some s.stack.length) :
      Effect s (.call nnn) ((s.setStack (s.pc :: s.stack)).setPc (nnn.setWidth 16))
  /-- A change of registers alone, each by a form that may write it. -/
  | regs {i : Instr} (v : Vector Byte 16) (hv : s.RegsWithin v (WritesReg · i)) : Effect s i { s with v := v }
  /-- ANNN and FX29 (43 R131, R133). -/
  | index {i : Instr} (w : Word) (hi : (∃ nnn, i = .ldI nnn) ∨ ∃ x, i = .ldFont x) (hle : w.toNat ≤ 0x1000) :
      Effect s i (s.setI w)
  /-- FX1E, with its flag (43 R132). -/
  | addIndex (x : Reg) (v : Vector Byte 16) (w : Word) (hv : s.RegsWithin v (· = VF)) (hle : w.toNat ≤ 0x1000) :
      Effect s (.addI x) { s with v := v, i := w }
  /-- FX33 in range (43 R134). -/
  | digits (x : Reg) (m : List Host.Cell) (hwf : Memory.wf s.mem = true → Memory.wf m = true) :
      Effect s (.ldBcd x) (s.setMem m)
  /-- FX55 in range (43 R135). -/
  | store (x : Reg) (m : List Host.Cell) (w : Word) (hwf : Memory.wf s.mem = true → Memory.wf m = true)
      (hw : w ≠ s.i → s.now.quirks.storeLoadIncrement = true) (hle : w.toNat ≤ 0x1000) :
      Effect s (.storeRegs x) ((s.setMem m).setI w)
  /-- FX65 in range (43 R136). -/
  | load (x : Reg) (v : Vector Byte 16) (w : Word) (hv : s.RegsWithin v (· ≤ x))
      (hw : w ≠ s.i → s.now.quirks.storeLoadIncrement = true) (hle : w.toNat ≤ 0x1000) :
      Effect s (.loadRegs x) { s with v := v, i := w }
  /-- FX15 (45 R165). -/
  | delayTimer (x : Reg) : Effect s (.ldDt x) (s.setDt (s.getV x))
  /-- FX18 (45 R166). -/
  | soundTimer (x : Reg) : Effect s (.ldSt x) (s.setSt (s.getV x))
  /-- 00E0 (44 R146). -/
  | clear : Effect s .cls ((s.setFb darkScreen).setRedraw true)
  /-- DXYN in range (44 R147). -/
  | draw (x y : Reg) (n : Nibble) (v : Vector Byte 16) (fb : Vector (Vector Bool 64) 32)
      (hv : s.RegsWithin v (· = VF)) : Effect s (.drw x y n) { s with v := v, fb := fb, redraw := true }

section Shapes

variable {s : State} {i : Instr}

/-- A skip, whatever its condition. -/
theorem Effect.skip_ite (hi : Skips i) (c : Prop) [Decidable c] {a b : Word} (ha : a = s.pc ∨ a = s.pc + 2)
    (hb : b = s.pc ∨ b = s.pc + 2) : Effect s i (s.setPc (if c then a else b)) := by
  refine .skip _ hi ?_
  split
  · exact ha
  · exact hb

/-- A write of one register. -/
theorem Effect.reg {r : Reg} (hi : WritesReg r i) (b : Byte) : Effect s i (s.setV r b) := by
  refine .regs _ fun q hne => ?_
  have hq : q = r := by
    by_contra hqr
    exact hne (s.getV_setV_other hqr b)
  exact hq ▸ hi

/-- A write of VF and of another register. -/
theorem Effect.of_onlyRegs {t : State} {x : Reg} (h : s.OnlyRegs t (fun r => r = x ∨ r = VF)) (hx : WritesReg x i)
    (hvf : WritesReg VF i) : Effect s i t := by
  obtain ⟨hframe, -, hregs⟩ := h
  rw [hframe]
  refine .regs _ fun q hne => ?_
  have hq : q = x ∨ q = VF := by
    by_contra hother
    exact hne (hregs q hother)
  rcases hq with rfl | rfl
  · exact hx
  · exact hvf

/-- A data access: out of range a fault, in range its effect. -/
theorem Effect.of_withRange {len : Nat} {effect : State → State} (hi : CanFault i)
    (h : len = 0 ∨ s.i.toNat + len ≤ 0x1000 → Effect s i (effect s)) : Effect s i (withRange len effect s) := by
  by_cases hrange : len = 0 ∨ s.i.toNat + len ≤ 0x1000
  · rw [withRange_inRange hrange]
    exact h hrange
  · rw [withRange_outOfRange hrange]
    exact .fault _ hi

end Shapes

/-! ### The pieces of the changes -/

theorem bumpedIndex_ne {x : Reg} {s : State} (h : bumpedIndex x s ≠ s.i) : s.now.quirks.storeLoadIncrement = true := by
  by_contra hoff
  exact h (if_neg hoff)

theorem bumpedIndex_le {x : Reg} {s : State} (hrange : s.i.toNat + x.val ≤ 0x0FFF) :
    (bumpedIndex x s).toNat ≤ 0x1000 := by
  rw [toNat_bumpedIndex hrange]
  split <;> omega

theorem toNat_setWidth_addr_le (nnn : Addr12) : (nnn.setWidth 16).toNat ≤ 0x0FFF := by
  have hlt : nnn.toNat < 4096 := nnn.isLt
  rw [toNat_setWidth_addr]
  omega

theorem toNat_byte_add_addr_le (b : Byte) (nnn : Addr12) : (b.setWidth 16 + nnn.setWidth 16).toNat ≤ 0x10FE := by
  have hb : b.toNat < 256 := b.isLt
  have hlt : nnn.toNat < 4096 := nnn.isLt
  rw [toNat_byte_add_addr]
  omega

theorem toNat_glyphAddr_le (b : Byte) : (glyphAddr b).toNat ≤ 0x1000 := by
  have hb : b.toNat < 256 := b.isLt
  rw [toNat_glyphAddr]
  omega

theorem toNat_wrapIndex_le (sum : Nat) : (wrapIndex sum).toNat ≤ 0x1000 := by
  rw [toNat_wrapIndex]
  split <;> omega

theorem regsWithin_setFlag (s : State) (c : Bool) : s.RegsWithin (s.setFlag c).v (· = VF) := by
  intro r hne
  by_contra hr
  exact hne (s.getV_setV_other hr _)

theorem regsWithin_drawSprite (x y : Reg) (n : Nibble) (s : State) :
    s.RegsWithin (drawSprite x y n s).v (· = VF) := by
  intro r hne
  by_contra hr
  exact hne (drawSprite_getV x y n s hr)

theorem regsWithin_loadRange (base : Nat) (x : Reg) (s : State) :
    s.RegsWithin (loadRange base (x.val + 1) s).v (· ≤ x) := by
  intro r hne
  by_contra hr
  have hgt : x.val < r.val := not_le.mp hr
  have hkept : (loadRange base (x.val + 1) s).getV r = s.getV r := by
    rw [loadRange_getV (by omega), if_neg (by omega)]
  exact hne hkept

theorem effect_storeRegs {x : Reg} {s : State} (hrange : s.i.toNat + x.val ≤ 0x0FFF) :
    Effect s (.storeRegs x) (bumpIndex x (storeRange s.i.toNat (x.val + 1) s)) := by
  rw [bumpIndex_storeRange, storeRange_frame]
  exact .store x _ _ (fun hwf => storeRange_wf hwf (show s.i.toNat + (x.val + 1) ≤ 0x1000 by omega)) bumpedIndex_ne
    (bumpedIndex_le hrange)

theorem effect_loadRegs {x : Reg} {s : State} (hrange : s.i.toNat + x.val ≤ 0x0FFF) :
    Effect s (.loadRegs x) (bumpIndex x (loadRange s.i.toNat (x.val + 1) s)) := by
  rw [bumpIndex_loadRange, loadRange_frame]
  exact .load x _ _ (regsWithin_loadRange _ x s) bumpedIndex_ne (bumpedIndex_le hrange)

theorem effect_drw (x y : Reg) (n : Nibble) (s : State) : Effect s (.drw x y n) (drawSprite x y n s) := by
  rw [drawSprite_frame]
  exact .draw x y n _ _ (regsWithin_drawSprite x y n s)

/-! ### Every handler -/

/-- A handler answers a next state, which is one of the changes for its instruction. -/
theorem exec_effect (i : Instr) (s : State) : ∃ t, exec i s = .next t ∧ Effect s i t := by
  cases i with
  | cls => exact ⟨_, exec_cls s, .clear⟩
  | ret =>
    cases hstack : s.stack with
    | nil => exact ⟨_, exec_ret_nil hstack, .fault _ (.inl rfl)⟩
    | cons top rest => exact ⟨_, exec_ret_cons hstack, .ret top rest hstack⟩
  | call nnn =>
    by_cases hfull : s.params.stackDepth = some s.stack.length
    · exact ⟨_, exec_call_full nnn hfull, .fault _ (by simp [CanFault])⟩
    · exact ⟨_, exec_call_room nnn hfull, .call nnn hfull⟩
  | sys nnn => exact ⟨_, rfl, .fault _ (by simp [CanFault])⟩
  | illegal w => exact ⟨_, rfl, .fault _ (by simp [CanFault])⟩
  | jp nnn => exact ⟨_, exec_jp nnn s, .jump _ ⟨nnn, .inl rfl⟩ ((toNat_setWidth_addr_le nnn).trans (by decide))⟩
  | jpV0 nnn => exact ⟨_, exec_jpV0 nnn s, .jump _ ⟨nnn, .inr rfl⟩ (toNat_byte_add_addr_le _ nnn)⟩
  | seByte x nn => exact ⟨_, exec_seByte x nn s, .skip_ite (by simp [Skips]) _ (.inr rfl) (.inl rfl)⟩
  | sneByte x nn => exact ⟨_, exec_sneByte x nn s, .skip_ite (by simp [Skips]) _ (.inl rfl) (.inr rfl)⟩
  | seReg x y n => exact ⟨_, exec_seReg x y n s, .skip_ite (by simp [Skips]) _ (.inr rfl) (.inl rfl)⟩
  | sneReg x y n => exact ⟨_, exec_sneReg x y n s, .skip_ite (by simp [Skips]) _ (.inl rfl) (.inr rfl)⟩
  | skp x => exact ⟨_, exec_skp x s, .skip_ite (by simp [Skips]) _ (.inr rfl) (.inl rfl)⟩
  | sknp x => exact ⟨_, exec_sknp x s, .skip_ite (by simp [Skips]) _ (.inl rfl) (.inr rfl)⟩
  | ldByte x nn => exact ⟨_, exec_ldByte x nn s, .reg (by simp [WritesReg]) _⟩
  | addByte x nn => exact ⟨_, exec_addByte x nn s, .reg (by simp [WritesReg]) _⟩
  | rnd x nn => exact ⟨_, exec_rnd x nn s, .reg (by simp [WritesReg]) _⟩
  | ldReg x y => exact ⟨_, exec_ldReg x y s, .reg (by simp [WritesReg]) _⟩
  | orReg x y => exact ⟨_, exec_orReg x y s, .reg (by simp [WritesReg]) _⟩
  | andReg x y => exact ⟨_, exec_andReg x y s, .reg (by simp [WritesReg]) _⟩
  | xorReg x y => exact ⟨_, exec_xorReg x y s, .reg (by simp [WritesReg]) _⟩
  | ldFromDt x => exact ⟨_, exec_ldFromDt x s, .reg (by simp [WritesReg]) _⟩
  | addReg x y =>
    exact ⟨_, exec_addReg x y s, .of_onlyRegs (s.onlyRegs_flag_setV _ x _) (by simp [WritesReg]) (by simp [WritesReg])⟩
  | subReg x y =>
    exact ⟨_, exec_subReg x y s, .of_onlyRegs (s.onlyRegs_flag_setV _ x _) (by simp [WritesReg]) (by simp [WritesReg])⟩
  | subnReg x y =>
    exact ⟨_, exec_subnReg x y s, .of_onlyRegs (s.onlyRegs_flag_setV _ x _) (by simp [WritesReg]) (by simp [WritesReg])⟩
  | shr x y =>
    exact ⟨_, exec_shr x y s, .of_onlyRegs (s.onlyRegs_setV_flag_setV _ x _ _) (by simp [WritesReg]) (by simp [WritesReg])⟩
  | shl x y =>
    exact ⟨_, exec_shl x y s, .of_onlyRegs (s.onlyRegs_setV_flag_setV _ x _ _) (by simp [WritesReg]) (by simp [WritesReg])⟩
  | ldKey x =>
    by_cases hnone : s.now.keys = 0
    · exact ⟨_, exec_ldKey_wait x hnone, .wait x⟩
    · exact ⟨_, exec_ldKey_load x hnone, .reg (by simp [WritesReg]) _⟩
  | ldI nnn =>
    exact ⟨_, exec_ldI nnn s, .index _ (.inl ⟨nnn, rfl⟩) ((toNat_setWidth_addr_le nnn).trans (by decide))⟩
  | ldFont x => exact ⟨_, exec_ldFont x s, .index _ (.inr ⟨x, rfl⟩) (toNat_glyphAddr_le _)⟩
  | addI x => exact ⟨_, exec_addI x s, .addIndex x _ _ (regsWithin_setFlag s _) (toNat_wrapIndex_le _)⟩
  | ldDt x => exact ⟨_, exec_ldDt x s, .delayTimer x⟩
  | ldSt x => exact ⟨_, exec_ldSt x s, .soundTimer x⟩
  | ldBcd x =>
    refine ⟨_, exec_ldBcd x s, .of_withRange (by simp [CanFault]) fun hrange => ?_⟩
    exact .digits x _ fun hwf => storeDigits_wf (x := x) hwf (by omega)
  | storeRegs x =>
    exact ⟨_, exec_storeRegs x s, .of_withRange (by simp [CanFault]) fun hrange => effect_storeRegs (by omega)⟩
  | loadRegs x =>
    exact ⟨_, exec_loadRegs x s, .of_withRange (by simp [CanFault]) fun hrange => effect_loadRegs (by omega)⟩
  | drw x y n =>
    exact ⟨_, exec_drw x y n s, .of_withRange (by simp [CanFault]) fun _ => effect_drw x y n s⟩

theorem effect_of_exec {i : Instr} {s t : State} (h : exec i s = .next t) : Effect s i t :=
  of_next_eq (exec_effect i s) h

/-! ### The writers of each piece of state -/

section Writers

variable {s t : State} {i : Instr} (h : Effect s i t)
include h

theorem Effect.mem_writers (hne : t.mem ≠ s.mem) : ∃ x, i = .ldBcd x ∨ i = .storeRegs x := by
  cases h with
  | digits x => exact ⟨x, .inl rfl⟩
  | store x => exact ⟨x, .inr rfl⟩
  | _ => exact absurd rfl hne

theorem Effect.reg_writers {r : Reg} (hne : t.getV r ≠ s.getV r) : WritesReg r i := by
  cases h with
  | regs v hv => exact hv r hne
  | addIndex x v w hv => simp [WritesReg, hv r hne]
  | load x v w hv => simp [WritesReg, hv r hne]
  | draw x y n v fb hv => simp [WritesReg, hv r hne]
  | _ => exact absurd rfl hne

theorem Effect.pc_writers (hne : t.pc ≠ s.pc) :
    i = .ret ∨ (∃ nnn, i = .jp nnn ∨ i = .call nnn ∨ i = .jpV0 nnn) ∨
      (∃ x nn, i = .seByte x nn ∨ i = .sneByte x nn) ∨ (∃ x y n, i = .seReg x y n ∨ i = .sneReg x y n) ∨
      ∃ x, i = .skp x ∨ i = .sknp x ∨ i = .ldKey x := by
  cases h with
  | jump target hi => obtain ⟨nnn, rfl | rfl⟩ := hi <;> simp
  | skip target hi => rcases hi with ⟨x, nn, rfl | rfl⟩ | ⟨x, y, n, rfl | rfl⟩ | ⟨x, rfl | rfl⟩ <;> simp
  | wait | ret | call => simp
  | _ => exact absurd rfl hne

theorem Effect.fb_writers (hne : t.fb ≠ s.fb) : i = .cls ∨ ∃ x y n, i = .drw x y n := by
  cases h with
  | clear | draw => simp
  | _ => exact absurd rfl hne

theorem Effect.stack_writers (hne : t.stack ≠ s.stack) : i = .ret ∨ ∃ nnn, i = .call nnn := by
  cases h with
  | ret | call => simp
  | _ => exact absurd rfl hne

theorem Effect.i_writers (hne : t.i ≠ s.i) :
    (∃ nnn, i = .ldI nnn) ∨ ∃ x, i = .addI x ∨ i = .ldFont x ∨
      (s.now.quirks.storeLoadIncrement = true ∧ (i = .storeRegs x ∨ i = .loadRegs x)) := by
  cases h with
  | index w hi => rcases hi with ⟨nnn, rfl⟩ | ⟨x, rfl⟩ <;> simp
  | addIndex => simp
  | store x m w hwf hw => simp [hw hne]
  | load x v w hv hw => simp [hw hne]
  | _ => exact absurd rfl hne

theorem Effect.dt_writers (hne : t.dt ≠ s.dt) : ∃ x, i = .ldDt x ∧ t.dt = s.getV x := by
  cases h with
  | delayTimer x => exact ⟨x, rfl, rfl⟩
  | _ => exact absurd rfl hne

theorem Effect.st_writers (hne : t.st ≠ s.st) : ∃ x, i = .ldSt x ∧ t.st = s.getV x := by
  cases h with
  | soundTimer x => exact ⟨x, rfl, rfl⟩
  | _ => exact absurd rfl hne

/-- The latch is set by raising a fault alone, which does nothing else. -/
theorem Effect.eq_raise_of_fault_ne (hne : t.fault ≠ s.fault) : CanFault i ∧ ∃ f, t = raise f s := by
  cases h with
  | fault f hi => exact ⟨hi, f, rfl⟩
  | _ => exact absurd rfl hne

theorem Effect.redraw_writers (hne : t.redraw ≠ s.redraw) :
    (t.redraw = true ∧ (i = .cls ∨ ∃ x y n, i = .drw x y n)) ∨ (t.redraw = false ∧ t.Faulted) := by
  cases h with
  | clear => exact .inl ⟨rfl, .inl rfl⟩
  | draw x y n => exact .inl ⟨rfl, .inr ⟨x, y, n, rfl⟩⟩
  | fault f => exact .inr ⟨rfl, Option.some_ne_none f⟩
  | _ => exact absurd rfl hne

theorem Effect.untouched :
    t.acc = s.acc ∧ t.now = s.now ∧ t.inputs = s.inputs ∧ t.tick = s.tick ∧ t.params = s.params := by
  cases h <;> exact ⟨rfl, rfl, rfl, rfl, rfl⟩

end Writers

/-- Settles O16: piece by piece, from the changes a handler can make. -/
theorem eachStatePieceHasItsWriters : Obligations.EachStatePieceHasItsWriters := by
  intro i s t hexec
  have h := effect_of_exec hexec
  obtain ⟨hacc, hrest⟩ := h.untouched
  exact ⟨h.mem_writers, fun _ => h.reg_writers, h.pc_writers, h.fb_writers, h.stack_writers, h.i_writers, h.dt_writers,
    h.st_writers, hacc, fun hne => (h.eq_raise_of_fault_ne hne).1, h.redraw_writers, hrest⟩

/-- Settles O17: the writers of register 15, where only X = 15 is at or above it. -/
theorem onlyFlagWritersTouchVf : Obligations.OnlyFlagWritersTouchVf := by
  intro i s t hexec hne
  rcases (effect_of_exec hexec).reg_writers hne with hbyte | ⟨y, hreg⟩ | hdt | hkey | ⟨x, hle, hload⟩ | ⟨-, hflag⟩
  · exact .inr (.inr (.inr (.inl hbyte)))
  · rcases hreg with rfl | rfl | rfl | rfl | rfl | rfl | rfl | rfl | rfl <;> simp
  · simp [hdt]
  · simp [hkey]
  · have hx : x = VF := le_antisymm (Fin.le_last x) hle
    simp [hload, hx]
  · rcases hflag with hgroup8 | hindex | hdraw
    · exact .inl hgroup8
    · exact .inr (.inl hindex)
    · exact .inr (.inr (.inl hdraw))

/-! ### The invariant of reachable states -/

theorem toNat_add_two {w : Word} (h : w.toNat ≤ 0x1000) : (w + 2).toNat = w.toNat + 2 := by
  bv_omega

theorem toNat_sub_two {w : Word} (h : 2 ≤ w.toNat) : (w - 2).toNat = w.toNat - 2 := by
  bv_omega

/-- RET takes an entry of the stack into pc. -/
theorem State.Inv.ret {s : State} (hs : s.Inv) {top : Word} {rest : List Word} (hstack : s.stack = top :: rest) :
    ((s.setStack rest).setPc top).Inv := by
  have htop : top.toNat ≤ 0x1000 := hs.stack_le top (hstack ▸ List.mem_cons_self)
  refine { hs with pc_le := htop.trans (by decide), stack_le := fun a ha => ?_, depth_le := fun depth hdepth => ?_ }
  · exact hs.stack_le a (hstack ▸ List.mem_cons_of_mem top ha)
  · have hle := hs.depth_le depth hdepth
    rw [hstack, List.length_cons] at hle
    exact Nat.le_of_succ_le hle

/-- CALL with room pushes a pc in range. -/
theorem State.Inv.call {s : State} (hs : s.Inv) (hpc : s.pc.toNat ≤ 0x1000)
    (hroom : s.params.stackDepth ≠ some s.stack.length) (nnn : Addr12) :
    ((s.setStack (s.pc :: s.stack)).setPc (nnn.setWidth 16)).Inv := by
  refine { hs with
    pc_le := (toNat_setWidth_addr_le nnn).trans (by decide), stack_le := fun a ha => ?_, depth_le := fun depth hdepth => ?_ }
  · rcases List.mem_cons.mp ha with rfl | ha
    · exact hpc
    · exact hs.stack_le a ha
  · have hne : s.stack.length ≠ depth := fun e => hroom (e ▸ hdepth)
    exact Nat.lt_of_le_of_ne (hs.depth_le depth hdepth) hne

/-- A handler keeps the invariant when pc is where the advance before it leaves pc. -/
theorem Effect.keeps_inv {s t : State} {i : Instr} (h : Effect s i t) (hs : s.Inv) (hlo : 2 ≤ s.pc.toNat)
    (hhi : s.pc.toNat ≤ 0x1000) : t.Inv := by
  cases h with
  | fault | regs | delayTimer | soundTimer | clear | draw => exact { hs with }
  | jump target hi hle => exact { hs with pc_le := hle }
  | skip target hi htarget =>
    have hle : target.toNat ≤ 0x10FE := by
      rcases htarget with rfl | rfl
      · exact hs.pc_le
      · rw [toNat_add_two hhi]
        omega
    exact { hs with pc_le := hle }
  | wait =>
    have hle : (s.pc - 2).toNat ≤ 0x10FE := by
      rw [toNat_sub_two hlo]
      omega
    exact { hs with pc_le := hle }
  | ret top rest hstack => exact hs.ret hstack
  | call nnn hroom => exact hs.call hhi hroom nnn
  | index w hi hle => exact { hs with i_le := hle }
  | addIndex x v w hv hle => exact { hs with i_le := hle }
  | digits x m hwf => exact { hs with mem_wf := hwf hs.mem_wf }
  | store x m w hwf hw hle => exact { hs with mem_wf := hwf hs.mem_wf, i_le := hle }
  | load x v w hv hw hle => exact { hs with i_le := hle }

end Sys2Proof.Machine
end

section
/-! One step (spec 40 R81): it idles on a faulted core, faults on a fetch out of range, or runs the handler of the word at pc
and ends with the TimerGate. The rules about steps are read off these three ways. -/

namespace Sys2Proof.Machine

/-! ### The three ways of a step -/

theorem step_of_faulted {s : State} (h : s.Faulted) : step s = .next (idle s) := by
  obtain ⟨f, hf⟩ := Option.ne_none_iff_exists'.mp h
  simp only [step, hf]

theorem step_of_fetch_out_of_range {s : State} (hok : s.fault = none) (hpc : 0x0FFE < s.pc.toNat) :
    step s = .next (raise (.memoryOutOfRange (BitVec.ofNat 17 (max s.pc.toNat 0x1000))) (sample s)) := by
  have hfetch := fetch_eq s
  rw [if_neg (Nat.not_le.mpr hpc)] at hfetch
  simp only [step, hok, fetch_sample, hfetch]

theorem step_of_fetch {s : State} (hok : s.fault = none) (hpc : s.pc.toNat ≤ 0x0FFE) :
    step s = finish (exec (decode s.wordAtPc) (beginHandler (sample s))) := by
  simp only [step, hok, fetch_sample, fetch_wordAtPc hpc]

/-- What a step can make of a state. -/
inductive StepsTo (s : State) : State → Prop
  /-- A faulted core does nothing (40 R90). -/
  | idle (hfault : s.Faulted) : StepsTo s (idle s)
  /-- No word can be fetched at pc (40 R83). -/
  | badFetch (hok : s.fault = none) (a : BitVec 17) : StepsTo s (raise (.memoryOutOfRange a) (sample s))
  /-- The handler of the word at pc runs, then the TimerGate unless it faulted (40 R85 to R88). -/
  | run (hok : s.fault = none) (hpc : s.pc.toNat ≤ 0x0FFE) {u : State}
      (heffect : Effect (beginHandler (sample s)) (decode s.wordAtPc) u) : StepsTo s (endStep u)

theorem step_stepsTo (s : State) : ∃ t, step s = .next t ∧ StepsTo s t := by
  by_cases hok : s.fault = none
  · by_cases hpc : s.pc.toNat ≤ 0x0FFE
    · obtain ⟨u, hexec, heffect⟩ := exec_effect (decode s.wordAtPc) (beginHandler (sample s))
      exact ⟨_, by rw [step_of_fetch hok hpc, hexec, finish], .run hok hpc heffect⟩
    · exact ⟨_, step_of_fetch_out_of_range hok (Nat.not_le.mp hpc), .badFetch hok _⟩
  · exact ⟨_, step_of_faulted hok, .idle hok⟩

theorem stepsTo_of_step {s t : State} (h : step s = .next t) : StepsTo s t :=
  of_next_eq (step_stepsTo s) h

/-- Settles O6: each of the three ways answers a next state. -/
theorem everyStepAnswersNextState : Obligations.EveryStepAnswersNextState := by
  intro s
  obtain ⟨t, hstep, -⟩ := step_stepsTo s
  exact ⟨t, hstep⟩

/-! ### The invariant -/

theorem State.Inv.endStep {s : State} (hs : s.Inv) : (endStep s).Inv := by
  rw [endStep_eq]
  split
  · exact { hs with }
  · exact hs

/-- The advance before a handler leaves pc at an address after the first, inside or just above memory. -/
theorem State.Inv.beginHandler {s : State} (hs : s.Inv) (hpc : s.pc.toNat ≤ 0x0FFE) :
    (beginHandler (sample s)).Inv ∧ (beginHandler (sample s)).pc.toNat = s.pc.toNat + 2 := by
  have hadvance : (s.pc + 2).toNat = s.pc.toNat + 2 := toNat_add_two (by omega)
  have hle : (s.pc + 2).toNat ≤ 0x10FE := by omega
  exact ⟨{ hs with pc_le := hle }, hadvance⟩

/-- Settles O13: the handler keeps the invariant from where the advance left pc; the other two ways leave pc alone. -/
theorem stepKeepsReachableInvariant : Obligations.StepKeepsReachableInvariant := by
  intro s t hs hstep
  cases stepsTo_of_step hstep with
  | idle | badFetch => exact { hs with }
  | run hok hpc heffect =>
    obtain ⟨hbegin, hadvance⟩ := hs.beginHandler hpc
    exact (heffect.keeps_inv hbegin (by omega) (by omega)).endStep

/-! ### Faulting steps -/

/-- Settles O9: a handler that sets the latch does nothing else, and no gate follows. -/
theorem faultingStepChangesNothingElse : Obligations.FaultingStepChangesNothingElse := by
  intro s t hok hstep hfault
  cases stepsTo_of_step hstep with
  | idle hfault => exact absurd hok hfault
  | badFetch _ a => exact ⟨fun _ => rfl, fun _ => rfl, .inl rfl, rfl, rfl⟩
  | @run _ _ u heffect =>
    have hne : u.fault ≠ (beginHandler (sample s)).fault := by
      intro hu
      have hnone : u.fault = none := hu.trans hok
      rw [endStep_eq, if_pos hnone] at hfault
      exact hfault hnone
    obtain ⟨-, f, rfl⟩ := heffect.eq_raise_of_fault_ne hne
    exact ⟨fun _ => rfl, fun _ => rfl, .inr rfl, rfl, rfl⟩

/-- Settles O7: the fetch reports the lowest address that does not exist. -/
theorem fetchOutOfRangeFaults : Obligations.FetchOutOfRangeFaults := by
  intro s hok hpc
  refine ⟨_, step_of_fetch_out_of_range hok hpc, ?_, rfl, rfl⟩
  rw [raise_fault, ofNat_max_index]
  by_cases htop : s.pc.toNat = 0x0FFF
  · rw [if_pos htop, if_pos (by omega)]
  · rw [if_neg htop, if_neg (by omega)]

/-! ### Faulted cores -/

theorem run_succ_of_next (M : Host.Core) (k : Nat) {s s' : M.State} (h : M.step s = .next s') :
    M.run (k + 1) s = M.run k s' := by
  rw [Host.Core.run, h]

theorem run_of_faulted {s : State} (h : s.Faulted) (k : Nat) :
    Host.Core.run Sys2Proof.core (k + 1) s = .next (idle s) := by
  induction k generalizing s with
  | zero => exact run_succ_of_next Sys2Proof.core 0 (step_of_faulted h)
  | succ k ih =>
    exact (run_succ_of_next Sys2Proof.core (k + 1) (step_of_faulted h)).trans (ih (s := idle s) h)

theorem State.tone_eq (s : State) : s.tone = decide (0 < s.st.toNat) := by
  have hbyte : ∀ b : Byte, (b != 0) = decide (0 < b.toNat) := by decide
  exact hbyte s.st

/-- Settles O8: by induction on the number of steps, each of which idles. -/
theorem faultedCoreNeverMoves : Obligations.FaultedCoreNeverMoves := by
  intro s k hfault
  exact ⟨_, run_of_faulted hfault k, rfl, (idle s).tone_eq⟩

/-! ### Running a handler -/

/-- Settles O5: the state before the handler is the sampled one with pc advanced and REDRAW cleared. -/
theorem stepRunsDecodedInstruction : Obligations.StepRunsDecodedInstruction := by
  intro s i hok hpc hdecode _ before
  have hstep : step s = finish (exec i before) := hdecode ▸ step_of_fetch hok hpc
  refine ⟨fun t hexec => ?_, fun r hexec => ?_, fun r hexec => ?_⟩
  · rw [hstep, hexec, finish, endStep_eq]
  · rw [hstep, hexec, finish]
  · rw [hstep, hexec, finish]

theorem exec_sys (nnn : Addr12) (s : State) :
    exec (.sys nnn) s = .next (raise (.unsupportedOpcode (packA 0x0 nnn) s.pc) s) := rfl

theorem exec_illegal (w : Word) (s : State) :
    exec (.illegal w) s = .next (raise (.unsupportedOpcode w s.pc) s) := rfl

/-- The word of SYS is its address, widened. -/
theorem packA_zero (nnn : Addr12) : packA 0x0 nnn = nnn.setWidth 16 := by
  apply BitVec.eq_of_toNat_eq
  have happend : (packA 0x0 nnn).toNat = 0 <<< 12 ||| nnn.toNat := BitVec.toNat_append _ _
  rw [happend, toNat_setWidth_addr, Nat.zero_shiftLeft, Nat.zero_or]

/-- Whether SYS or the catch-all takes an illegal word, the fault records that word. -/
theorem exec_of_illegalWord {w : Word} (h : illegalWord w) (s : State) :
    exec (decode w) s = .next (raise (.unsupportedOpcode w s.pc) s) := by
  rcases (illegalWordsAreExactlyTheUnsupported w).mp h with ⟨nnn, hsys⟩ | hillegal
  · have hword : packA 0x0 nnn = w := by rw [← encode_decode w, hsys, encode]
    rw [hsys, exec_sys, hword]
  · rw [hillegal, exec_illegal]

/-- Settles O10: the handler of an illegal word raises its fault, after which the gate does nothing. -/
theorem illegalWordsFault : Obligations.IllegalWordsFault := by
  refine ⟨fun s hok hpc hillegal => ?_, fun nnn s => ?_, fun w s => ?_⟩
  · have hstep : step s =
        .next (raise (.unsupportedOpcode s.wordAtPc (s.pc + 2)) (beginHandler (sample s))) := by
      rw [step_of_fetch hok hpc, exec_of_illegalWord hillegal]
      rfl
    exact ⟨_, hstep, rfl, rfl, rfl, fun _ => rfl, rfl⟩
  · exact ⟨_, exec_sys nnn s, by rw [raise_fault, packA_zero], rfl, rfl, fun _ => rfl⟩
  · exact ⟨_, exec_illegal w s, rfl, rfl, rfl, fun _ => rfl⟩

/-- Settles O25: the word at the entry point of empty memory is 0x0000, an illegal one. -/
theorem bareResetFaultsOnFirstStep : Obligations.BareResetFaultsOnFirstStep := by
  have hword : State.reset.wordAtPc = 0x0000 := by decide
  have hillegal : illegalWord State.reset.wordAtPc := by
    rw [hword]
    decide
  obtain ⟨t, hstep, hfault, hpc, -⟩ := illegalWordsFault.1 State.reset rfl (by decide) hillegal
  exact ⟨t, hstep, by rw [hfault, hword]; rfl, hpc⟩

/-! ### The TimerGate -/

theorem endStep_of_ok {s : State} (h : s.fault = none) : endStep s = timerGate s := by
  rw [endStep_eq, if_pos h]

theorem gateFires_iff (s : State) : gateFires s = true ↔ s.params.timerThreshold < s.acc + s.now.elapsed :=
  decide_eq_true_iff

/-- A timer under the gate, as a number: 0 stays 0. -/
theorem toNat_countDown (fires : Bool) (timer : Byte) :
    (countDown fires timer).toNat = if fires = true then timer.toNat - 1 else timer.toNat := by
  cases fires with
  | false => rw [countDown_eq, if_neg (by simp), if_neg Bool.false_ne_true]
  | true =>
    rw [if_pos rfl]
    revert timer
    decide

/-- Settles O11: by whether the step faulted and whether the gate fires. -/
theorem timerGateCountsBothTimersTogether : Obligations.TimerGateCountsBothTimersTogether := by
  intro s
  refine ⟨fun hok habove => ?fires, fun hok hwithin => ?rests, fun hfault => ?faulted, ?frame⟩
  case fires =>
    have hfires : gateFires s = true := (gateFires_iff s).mpr habove
    simp [endStep_of_ok hok, toNat_countDown, hfires]
  case rests =>
    have hrests : gateFires s = false := Bool.eq_false_iff.mpr (mt (gateFires_iff s).mp hwithin)
    simp [endStep_of_ok hok, countDown_eq, hrests]
  case faulted => rw [endStep_eq, if_neg hfault]
  case frame =>
    rw [endStep_eq]
    split <;> rfl

/-- Settles O59: the gate at the end of the step counts the DT that FX15 has just set. -/
theorem setTimerCountsInSameStep : Obligations.SetTimerCountsInSameStep := by
  intro x s hok hpc hdecode
  have hstep : step s = .next (timerGate ((beginHandler (sample s)).setDt (s.getV x))) := by
    rw [step_of_fetch hok hpc, hdecode, exec_ldDt, finish]
    exact congrArg Host.Outcome.next (endStep_of_ok hok)
  refine ⟨_, hstep, ?_⟩
  have hfires := gateFires_iff ((beginHandler (sample s)).setDt (s.getV x))
  rw [timerGate_dt, State.setDt_dt, toNat_countDown]
  exact if_congr hfires rfl rfl

end Sys2Proof.Machine
end

section
/-! Reset and ROM load (spec 70): a reset leaves one state but for the parameters and the host's side, and a ROM load copies
the ROM into its memory. -/

namespace Sys2Proof.Machine

/-! ### Creation -/

/-- A canonical memory that reads everywhere as an empty one is empty. -/
theorem Memory.eq_nil_of_read_eq {m : List Host.Cell} (hwf : Memory.wf m = true)
    (hread : ∀ a, Memory.read m a = resetByte a) : m = [] := by
  cases m with
  | nil => rfl
  | cons cell rest =>
    obtain ⟨a, u⟩ := cell
    obtain ⟨-, -, hne, -⟩ := Memory.wfFrom_cons.mp hwf
    have hhead : Memory.read ((a, u) :: rest) a = u := by rw [Memory.read, if_pos rfl]
    exact absurd (hhead.symm.trans (hread a)) hne

/-- Copying the default FONT_ROM over what an unlisted address reads as lists nothing. -/
theorem create_standard : State.create Params.standard = State.reset := by
  have hmem : (resetBare State.reset).mem = [] :=
    Memory.eq_nil_of_read_eq (resetBare_wf State.reset) fun a => resetBare_readByte State.reset a
  have hcreate : State.create Params.standard = resetBare State.reset := rfl
  rw [hcreate, resetBare_frame, hmem]
  rfl

/-! ### What a reset leaves -/

/-- The font region holds this machine's FONT_ROM. -/
theorem resetBare_readByte_font (s : State) (k : Fin 80) :
    (resetBare s).readByte (0x050 + k.val) = s.params.font[k.val] := by
  have hk := k.isLt
  rw [resetBare_readByte, if_pos (by omega), Nat.add_sub_cancel_left,
    List.getD_eq_getElem _ _ (by rw [Vector.length_toList]; exact hk), Vector.getElem_toList]

theorem resetBare_readByte_outside (s : State) {a : Nat} (h : a < 0x050 ∨ 0x0A0 ≤ a) : (resetBare s).readByte a = 0 := by
  rw [resetBare_readByte, if_neg (by omega)]

/-- Settles O22: memory by its bytes, every other field by the frame of a reset. -/
theorem resetLeavesTheStatedValues : Obligations.ResetLeavesTheStatedValues := by
  refine ⟨create_standard, fun s => ?_⟩
  have hframe := resetBare_frame s
  have hregs : ∀ r, (resetBare s).getV r = 0 := fun r => by
    rw [hframe]
    exact Vector.getElem_replicate _
  exact ⟨hregs, congrArg State.pc hframe, congrArg State.i hframe, congrArg State.stack hframe, congrArg State.dt hframe,
    congrArg State.st hframe, State.pixel_of_fb_dark (congrArg State.fb hframe), congrArg State.acc hframe,
    congrArg State.fault hframe, resetBare_readByte_font s, fun _ => resetBare_readByte_outside s, hframe⟩

/-! ### ROM loads -/

theorem loadRom_empty {rom : List Byte} (h : rom.length = 0) (s : State) : loadRom rom s = .fault .invalidRom :=
  if_pos h

theorem loadRom_tooLong {rom : List Byte} (h : 3584 < rom.length) (s : State) :
    loadRom rom s = .refused .romTooLong := by
  rw [loadRom, if_neg (by omega), Config.romMax, if_pos h]

theorem loadRom_fits {rom : List Byte} (hlo : 1 ≤ rom.length) (hhi : rom.length ≤ 3584) (s : State) :
    loadRom rom s = .next (copyBytes 0x200 rom (resetBare s)) := by
  rw [loadRom, if_neg (by omega), Config.romMax, if_neg (by omega), Config.progBase]

theorem loadRom_eq_next {rom : List Byte} {s t : State} (h : loadRom rom s = .next t) :
    rom.length ≤ 3584 ∧ t = copyBytes 0x200 rom (resetBare s) := by
  by_cases hempty : rom.length = 0
  · rw [loadRom_empty hempty] at h
    cases h
  · by_cases hlong : 3584 < rom.length
    · rw [loadRom_tooLong hlong] at h
      cases h
    · rw [loadRom_fits (by omega) (by omega)] at h
      cases h
      exact ⟨by omega, rfl⟩

/-- Settles O24: the three ranges of lengths exclude each other, and so do the three outcomes. -/
theorem romLoadStopsOnBadLength : Obligations.RomLoadStopsOnBadLength := by
  intro rom s
  by_cases hempty : rom.length = 0
  · simp [loadRom_empty hempty, hempty]
  · by_cases hlong : 3584 < rom.length
    · simp [loadRom_tooLong hlong, hlong, hempty]
    · simp [loadRom_fits (show 1 ≤ rom.length by omega) (Nat.not_lt.mp hlong), hlong, hempty]

/-- A ROM load leaves every field but memory as the reset does. -/
theorem copyBytes_resetBare_frame (rom : List Byte) (s : State) :
    copyBytes 0x200 rom (resetBare s) =
      { State.reset with
        mem := (copyBytes 0x200 rom (resetBare s)).mem, params := s.params, inputs := s.inputs, tick := s.tick } :=
  (copyBytes_frame 0x200 rom (resetBare s)).trans
    (congrArg (fun t => t.setMem (copyBytes 0x200 rom (resetBare s)).mem) (resetBare_frame s))

/-- Settles O23: the ROM ends inside memory and begins above the font, so neither copy touches the other. -/
theorem romLoadPlacesTheRom : Obligations.RomLoadPlacesTheRom := by
  intro rom s hlo hhi
  have hread := copyBytes_readByte (base := 0x200) (rom := rom) (resetBare_wf s)
    (show 0x200 + rom.length ≤ 0x1000 by omega)
  refine ⟨_, loadRom_fits hlo hhi s, fun k hk => ?rom, fun k => ?font, fun a ha => ?zero, copyBytes_resetBare_frame rom s⟩
  case rom => rw [hread, if_pos (by omega), Nat.add_sub_cancel_left]
  case font =>
    have hk := k.isLt
    rw [hread, if_neg (by omega), resetBare_readByte_font]
  case zero => rw [hread, if_neg (by omega), resetBare_readByte_outside s (by omega)]

/-! ### The invariant -/

theorem resetBare_inv {s : State} (hparams : s.params.Valid) : (resetBare s).Inv := by
  have hwf := resetBare_wf s
  rw [resetBare_frame] at hwf ⊢
  have hpc : (0x0200 : Word).toNat ≤ 0x10FE := by decide
  exact ⟨hwf, hpc, Nat.zero_le _, fun _ ha => absurd ha List.not_mem_nil, fun _ _ => Nat.zero_le _, hparams⟩

theorem create_inv {p : Params} (hparams : p.Valid) : (State.create p).Inv :=
  resetBare_inv (s := { State.reset with params := p }) hparams

/-- Settles O14: each is a bare reset, into whose memory a ROM load copies bytes of the address space. -/
theorem romLoadMeetsReachableInvariant : Obligations.RomLoadMeetsReachableInvariant := by
  refine ⟨fun p => create_inv, fun s => resetBare_inv, fun rom s t hparams hload => ?_⟩
  obtain ⟨hlen, rfl⟩ := loadRom_eq_next hload
  have hwf : Memory.wf (copyBytes 0x200 rom (resetBare s)).mem = true :=
    copyBytes_wf (resetBare_wf s) (show 0x200 + rom.length ≤ 0x1000 by omega)
  rw [copyBytes_frame]
  exact { resetBare_inv hparams with mem_wf := hwf }

/-- The free threshold is in range whatever it is. -/
theorem standard_valid : Params.standard.Valid := by
  have hexcess := Config.timerThresholdExcess.isLt
  refine ⟨by decide, Nat.le_add_right _ _, ?_⟩
  simp only [Params.standard, Config.timerThresholdMin, Config.timerThresholdMax]
  omega

/-- Settles O12: State.reset is the creation with the default parameters. -/
theorem resetMeetsReachableInvariant : Obligations.ResetMeetsReachableInvariant := by
  rw [Obligations.ResetMeetsReachableInvariant, ← create_standard]
  exact create_inv standard_valid

/-! ### The parameters -/

theorem endStep_params (s : State) : (endStep s).params = s.params := by
  rw [endStep_eq]
  split <;> rfl

/-- Settles O15: no handler writes the parameters, and no reset does. -/
theorem parametersNeverChange : Obligations.ParametersNeverChange := by
  refine ⟨fun s t hstep => ?step, fun s => ?reset, fun rom s t hload => ?load⟩
  case step =>
    cases stepsTo_of_step hstep with
    | idle | badFetch => rfl
    | run hok hpc heffect =>
      obtain ⟨-, -, -, -, hparams⟩ := heffect.untouched
      rw [endStep_params, hparams]
      rfl
  case reset => rw [resetBare_frame]
  case load =>
    obtain ⟨-, rfl⟩ := loadRom_eq_next hload
    rw [copyBytes_resetBare_frame]

end Sys2Proof.Machine
end

section
/-! Which input reaches which handler (spec 10 R25 to R28): a handler run with other inputs gives the same outcome but for
them, if the inputs it reads are the same. The rules about single inputs are instances. -/

namespace Sys2Proof.Machine

/-- The sampled inputs of a state changed. -/
def State.mapNow (g : StepInput → StepInput) (s : State) : State := { s with now := g s.now }

/-- The inputs that an instruction reads are the same in both. -/
structure ReadsAlike (i : Instr) (a b : StepInput) : Prop where
  shift : (∃ x y, i = .shr x y ∨ i = .shl x y) → a.quirks.shiftSource = b.quirks.shiftSource
  jump : (∃ nnn, i = .jpV0 nnn) → a.quirks.jumpOffset = b.quirks.jumpOffset
  increment : (∃ x, i = .storeRegs x ∨ i = .loadRegs x) → a.quirks.storeLoadIncrement = b.quirks.storeLoadIncrement
  random : (∃ x nn, i = .rnd x nn) → a.rnd = b.rnd
  keys : (∃ x, i = .skp x ∨ i = .sknp x ∨ i = .ldKey x) → a.keys = b.keys ∧ a.keyPick = b.keyPick

section Commutes

variable (g : StepInput → StepInput) (s : State)

/-! ### The shared operations that read no input -/

theorem withRange_mapNow (len : Nat) {effect : State → State} (h : effect (s.mapNow g) = (effect s).mapNow g) :
    withRange len effect (s.mapNow g) = (withRange len effect s).mapNow g := by
  by_cases hrange : len = 0 ∨ s.i.toNat + len ≤ 0x1000
  · rw [withRange_inRange hrange, withRange_inRange (s := s.mapNow g) hrange, h]
  · rw [withRange_outOfRange hrange, withRange_outOfRange (s := s.mapNow g) hrange]
    rfl

theorem storeRange_mapNow (base count : Nat) :
    storeRange base count (s.mapNow g) = (storeRange base count s).mapNow g := by
  induction count with
  | zero => rfl
  | succ k ih =>
    simp only [storeRange, ih]
    rfl

theorem loadRange_mapNow (base count : Nat) :
    loadRange base count (s.mapNow g) = (loadRange base count s).mapNow g := by
  induction count with
  | zero => rfl
  | succ k ih =>
    simp only [loadRange, ih]
    rfl

theorem togglePixel_mapNow (x y : Nat) : (s.mapNow g).togglePixel x y = (s.togglePixel x y).mapNow g := by
  unfold State.togglePixel
  split <;> rfl

theorem plot_mapNow (x y : Nat) : plot x y (s.mapNow g) = (plot x y s).mapNow g := by
  have hpixel : (s.mapNow g).pixel x y = s.pixel x y := rfl
  unfold plot
  rw [hpixel]
  split
  · split
    · exact togglePixel_mapNow g (s.setFlag true) x y
    · exact togglePixel_mapNow g s x y
  · rfl

theorem blitRow_mapNow (x0 y : Nat) (row : Byte) (count : Nat) :
    blitRow x0 y row count (s.mapNow g) = (blitRow x0 y row count s).mapNow g := by
  induction count with
  | zero => rfl
  | succ k ih =>
    simp only [blitRow, ih]
    split
    · rw [plot_mapNow]
    · rfl

theorem blit_mapNow (x0 y0 : Nat) (rows : List Byte) :
    blit x0 y0 rows (s.mapNow g) = (blit x0 y0 rows s).mapNow g := by
  induction rows generalizing y0 s with
  | nil => rfl
  | cons row rest ih => rw [blit, blit, blitRow_mapNow, ih]

theorem drawSprite_mapNow (x y : Reg) (n : Nibble) :
    drawSprite x y n (s.mapNow g) = (drawSprite x y n s).mapNow g :=
  congrArg (fun t => t.setRedraw true) (blit_mapNow g (s.setFlag false) _ _ _)

/-! ### The operand forms that read an input -/

theorem shiftSource_mapNow {x y : Reg} (h : (g s.now).quirks.shiftSource = s.now.quirks.shiftSource) :
    shiftSource x y (s.mapNow g) = shiftSource x y s := by
  have hflag : (s.mapNow g).now.quirks.shiftSource = s.now.quirks.shiftSource := h
  rw [shiftSource, hflag]
  rfl

theorem jumpRegister_mapNow {nnn : Addr12} (h : (g s.now).quirks.jumpOffset = s.now.quirks.jumpOffset) :
    jumpRegister nnn (s.mapNow g) = jumpRegister nnn s := by
  have hflag : (s.mapNow g).now.quirks.jumpOffset = s.now.quirks.jumpOffset := h
  rw [jumpRegister, hflag, jumpRegister]

theorem bumpedIndex_mapNow {x : Reg} (h : (g s.now).quirks.storeLoadIncrement = s.now.quirks.storeLoadIncrement) :
    bumpedIndex x (s.mapNow g) = bumpedIndex x s := by
  have hflag : (s.mapNow g).now.quirks.storeLoadIncrement = s.now.quirks.storeLoadIncrement := h
  rw [bumpedIndex, hflag]
  rfl

theorem keyPressed_mapNow {x : Reg} (h : (g s.now).keys = s.now.keys) : keyPressed x (s.mapNow g) = keyPressed x s := by
  have hdown : ∀ k, keyDown (s.mapNow g) k = keyDown s k := fun k => congrArg (fun keys => keys.getLsbD k) h
  simp only [keyPressed, hdown]
  rfl

theorem keySelect_congr {a b : StepInput} (hkeys : a.keys = b.keys) (hpick : a.keyPick = b.keyPick) :
    keySelect a = keySelect b := by
  rw [keySelect, hkeys, hpick, keySelect]

end Commutes

/-! ### Every handler -/

/-- A handler whose inputs are left alone by a change of the sampled inputs answers the same outcome but for them. -/
theorem exec_mapNow (g : StepInput → StepInput) (i : Instr) (s : State) (h : ReadsAlike i (g s.now) s.now) :
    exec i (s.mapNow g) = mapNext (State.mapNow g) (exec i s) := by
  cases i with
  | ret =>
    cases hstack : s.stack with
    | nil => rw [exec_ret_nil hstack, exec_ret_nil (s := s.mapNow g) hstack]; rfl
    | cons top rest => rw [exec_ret_cons hstack, exec_ret_cons (s := s.mapNow g) hstack]; rfl
  | call nnn =>
    by_cases hfull : s.params.stackDepth = some s.stack.length
    · rw [exec_call_full nnn hfull, exec_call_full (s := s.mapNow g) nnn hfull]; rfl
    · rw [exec_call_room nnn hfull, exec_call_room (s := s.mapNow g) nnn hfull]; rfl
  | seByte x nn => rw [exec_seByte, exec_seByte]; rfl
  | sneByte x nn => rw [exec_sneByte, exec_sneByte]; rfl
  | seReg x y n => rw [exec_seReg, exec_seReg]; rfl
  | sneReg x y n => rw [exec_sneReg, exec_sneReg]; rfl
  | skp x =>
    obtain ⟨hkeys, -⟩ := h.keys ⟨x, .inl rfl⟩
    rw [exec_skp, exec_skp, keyPressed_mapNow g s hkeys]
    rfl
  | sknp x =>
    obtain ⟨hkeys, -⟩ := h.keys ⟨x, .inr (.inl rfl)⟩
    rw [exec_sknp, exec_sknp, keyPressed_mapNow g s hkeys]
    rfl
  | ldKey x =>
    obtain ⟨hkeys, hpick⟩ := h.keys ⟨x, .inr (.inr rfl)⟩
    have hsame : (s.mapNow g).now.keys = s.now.keys := hkeys
    have hselect : keySelect (s.mapNow g).now = keySelect s.now := keySelect_congr hkeys hpick
    by_cases hnone : s.now.keys = 0
    · rw [exec_ldKey_wait x hnone, exec_ldKey_wait x (hsame.trans hnone)]
      rfl
    · rw [exec_ldKey_load x hnone, exec_ldKey_load x (hsame ▸ hnone), hselect]
      rfl
  | jpV0 nnn =>
    rw [exec_jpV0, exec_jpV0, jumpRegister_mapNow g s (h.jump ⟨nnn, rfl⟩)]
    rfl
  | rnd x nn =>
    have hsame : (s.mapNow g).now.rnd = s.now.rnd := h.random ⟨x, nn, rfl⟩
    rw [exec_rnd, exec_rnd, hsame]
    rfl
  | shr x y =>
    rw [exec_shr, exec_shr, shiftSource_mapNow g s (h.shift ⟨x, y, .inl rfl⟩)]
    rfl
  | shl x y =>
    rw [exec_shl, exec_shl, shiftSource_mapNow g s (h.shift ⟨x, y, .inr rfl⟩)]
    rfl
  | storeRegs x =>
    have hindex := bumpedIndex_mapNow (x := x) g s (h.increment ⟨x, .inl rfl⟩)
    rw [exec_storeRegs, exec_storeRegs, withRange_mapNow]
    · rfl
    · rw [bumpIndex_storeRange, bumpIndex_storeRange, storeRange_mapNow, hindex]
      rfl
  | loadRegs x =>
    have hindex := bumpedIndex_mapNow (x := x) g s (h.increment ⟨x, .inr rfl⟩)
    rw [exec_loadRegs, exec_loadRegs, withRange_mapNow]
    · rfl
    · rw [bumpIndex_loadRange, bumpIndex_loadRange, loadRange_mapNow, hindex]
      rfl
  | drw x y n =>
    rw [exec_drw, exec_drw, withRange_mapNow g s _ (drawSprite_mapNow g s x y n)]
    rfl
  | ldBcd x =>
    have hdigits : storeDigits x (s.mapNow g) = (storeDigits x s).mapNow g := rfl
    rw [exec_ldBcd, exec_ldBcd, withRange_mapNow g s _ hdigits]
    rfl
  | _ => rfl

/-! ### The inputs, one by one -/

/-- Settles O18: only CXNN reads the random byte. -/
theorem randomByteReachesOnlyRnd : Obligations.RandomByteReachesOnlyRnd := by
  intro i s b hi
  exact exec_mapNow (fun input => { input with rnd := b }) i s
    { shift := fun _ => rfl, jump := fun _ => rfl, increment := fun _ => rfl, keys := fun _ => ⟨rfl, rfl⟩
      random := fun ⟨x, nn, h⟩ => absurd h (hi x nn) }

/-- Settles O19: only the three key forms read the keys and the pick. -/
theorem keysReachOnlyKeyInstructions : Obligations.KeysReachOnlyKeyInstructions := by
  intro i s keys pick hi
  refine exec_mapNow (fun input => { input with keys := keys, keyPick := pick }) i s
    { shift := fun _ => rfl, jump := fun _ => rfl, increment := fun _ => rfl, random := fun _ => rfl, keys := ?_ }
  rintro ⟨x, h⟩
  obtain ⟨hskp, hsknp, hldKey⟩ := hi x
  rcases h with h | h | h
  exacts [absurd h hskp, absurd h hsknp, absurd h hldKey]

/-- Settles O20: each quirk has its own readers. -/
theorem quirksReachOnlyTheirInstructions : Obligations.QuirksReachOnlyTheirInstructions := by
  intro i s b
  refine ⟨fun hi => ?shift, fun hi => ?jump, fun hi => ?increment⟩
  case shift =>
    refine exec_mapNow (fun input => { input with quirks := { input.quirks with shiftSource := b } }) i s
      { jump := fun _ => rfl, increment := fun _ => rfl, random := fun _ => rfl, keys := fun _ => ⟨rfl, rfl⟩, shift := ?_ }
    rintro ⟨x, y, h | h⟩
    exacts [absurd h (hi x y).1, absurd h (hi x y).2]
  case jump =>
    exact exec_mapNow (fun input => { input with quirks := { input.quirks with jumpOffset := b } }) i s
      { shift := fun _ => rfl, increment := fun _ => rfl, random := fun _ => rfl, keys := fun _ => ⟨rfl, rfl⟩
        jump := fun ⟨nnn, h⟩ => absurd h (hi nnn) }
  case increment =>
    refine exec_mapNow (fun input => { input with quirks := { input.quirks with storeLoadIncrement := b } }) i s
      { shift := fun _ => rfl, jump := fun _ => rfl, random := fun _ => rfl, keys := fun _ => ⟨rfl, rfl⟩, increment := ?_ }
    rintro ⟨x, h | h⟩
    exacts [absurd h (hi x).1, absurd h (hi x).2]

/-- Settles O21: no handler reads the elapsed time. -/
theorem elapsedTimeReachesNoHandler : Obligations.ElapsedTimeReachesNoHandler := by
  intro i s e
  exact exec_mapNow (fun input => { input with elapsed := e }) i s
    { shift := fun _ => rfl, jump := fun _ => rfl, increment := fun _ => rfl, random := fun _ => rfl
      keys := fun _ => ⟨rfl, rfl⟩ }

end Sys2Proof.Machine
end
